-- ==== Sys2Proof/Word.lean ====
section
/-! DEFINITION. The machine's data widths (spec 00_scope.md R5, section 5.1). -/

namespace Sys2Proof

/-- A word: 16 bits, the width of every register, memory cell, instruction word, immediate and address (R5). -/
abbrev Word := BitVec 16

/-- A nibble: 4 bits, the width of the opcode and of an operand field (R51). -/
abbrev Nibble := BitVec 4

/-- A byte of an image file. Bytes exist only there: the core has no byte access (R31, R33). -/
abbrev Byte := BitVec 8

end Sys2Proof
end

