-- ==== Sys2Proof/Syntax.lean ====
section
/-! DEFINITION. The instructions as data: one constructor for each of the 16 opcodes (spec 30_encoding.md R56). -/

namespace Sys2Proof

/-- The four general registers (R12). -/
inductive Reg where
  | a | b | c | d
deriving DecidableEq, Repr

/-- An operand with its operand word, by operand class (R53). -/
inductive Operand where
  /-- REG: a general register. -/
  | reg (r : Reg)
  /-- IMM: the operand word itself. -/
  | imm (k : Word)
  /-- MEM: the cell whose address is the operand word. -/
  | mem (a : Word)
deriving DecidableEq, Repr

/-- The operand classes of a 4-bit operand field (R53). -/
inductive OperandClass where
  | reg | imm | mem | invalid
deriving DecidableEq, Repr

/-- The instructions. A two-operand instruction has its source first (R57); a one-operand instruction's single
operand stands in `src_field` whatever its role (R57). -/
inductive Instr where
  /-- 0x0 `mv src, dst` (R100) -/
  | mv (src dst : Operand)
  /-- 0x1 `io`: the core looks at none of the low 12 bits, kept here as `payload` (R60, R141). -/
  | io (payload : BitVec 12)
  /-- 0x2 `push src` (R101) -/
  | push (src : Operand)
  /-- 0x3 `pop dst` (R102) -/
  | pop (dst : Operand)
  /-- 0x4 `add src, dst` (R110) -/
  | add (src dst : Operand)
  /-- 0x5 `sub src, dst` (R111) -/
  | sub (src dst : Operand)
  /-- 0x6 `inc target` (R115) -/
  | inc (target : Operand)
  /-- 0x7 `dec target` (R116) -/
  | dec (target : Operand)
  /-- 0x8 `and src, dst` (R112) -/
  | and (src dst : Operand)
  /-- 0x9 `or src, dst` (R113) -/
  | or (src dst : Operand)
  /-- 0xA `not target` (R114) -/
  | not (target : Operand)
  /-- 0xB `cmp src, dst` (R125) -/
  | cmp (src dst : Operand)
  /-- 0xC `call target` (R130) -/
  | call (target : Operand)
  /-- 0xD `jnz target` (R132) -/
  | jnz (target : Operand)
  /-- 0xE `ret` (R131) -/
  | ret
  /-- 0xF `hlt` (R140) -/
  | hlt
deriving DecidableEq, Repr

/-- The 16 mnemonics, in opcode order (R56). -/
inductive Mnemonic where
  | mv | io | push | pop | add | sub | inc | dec | and | or | not | cmp | call | jnz | ret | hlt
deriving DecidableEq, Repr

/-- The mnemonic of an instruction. -/
def Instr.mnemonic : Instr → Mnemonic
  | .mv _ _ => .mv
  | .io _ => .io
  | .push _ => .push
  | .pop _ => .pop
  | .add _ _ => .add
  | .sub _ _ => .sub
  | .inc _ => .inc
  | .dec _ => .dec
  | .and _ _ => .and
  | .or _ _ => .or
  | .not _ => .not
  | .cmp _ _ => .cmp
  | .call _ => .call
  | .jnz _ => .jnz
  | .ret => .ret
  | .hlt => .hlt

end Sys2Proof
end

