-- ==== Sys2Proof/WellFormed.lean ====
section
/-! DEFINITION. Which operand classes each instruction accepts in each position (spec 30_encoding.md R58). -/

namespace Sys2Proof

/-- The operand names a general register. -/
def Operand.isReg : Operand → Bool
  | .reg _ => true
  | .imm _ => false
  | .mem _ => false

/-- The operand names a location: REG or MEM. A position that is written, or whose current value is compared,
accepts these and no IMM (R58, D5). -/
def Operand.isLocation : Operand → Bool
  | .reg _ => true
  | .imm _ => false
  | .mem _ => true

/-- R58's table. A value position accepts every class; a location position refuses IMM. INVALID codes have no
operand at all, so the decoder refuses them. -/
def Instr.wellFormed : Instr → Bool
  | .mv _ dst => dst.isLocation
  | .io _ => true
  | .push _ => true
  | .pop dst => dst.isLocation
  | .add _ dst => dst.isLocation
  | .sub _ dst => dst.isLocation
  | .inc target => target.isLocation
  | .dec target => target.isLocation
  | .and _ dst => dst.isLocation
  | .or _ dst => dst.isLocation
  | .not target => target.isLocation
  | .cmp _ dst => dst.isLocation
  | .call _ => true
  | .jnz _ => true
  | .ret => true
  | .hlt => true

end Sys2Proof
end

