-- ==== Sys2Proof/Decode.lean ====
section
/-! DEFINITION. From instruction words to instructions and back (spec 30_encoding.md R50 to R62). The placement of the
fields (R51, D1) is said in the four field readers and in `packWord`, nowhere else. -/

namespace Sys2Proof

/-- Bits 15:12, the opcode (R51). -/
def opcodeOf (iw : Word) : Nibble := iw.extractLsb' 12 4

/-- Bits 11:8, the source field, or the only field (R51). DESIGN CHOICE of the spec, D1 (log 6), unsafe. -/
def srcField (iw : Word) : Nibble := iw.extractLsb' 8 4

/-- Bits 7:4, the destination field (R51). DESIGN CHOICE of the spec, D1 (log 6), unsafe. -/
def dstField (iw : Word) : Nibble := iw.extractLsb' 4 4

/-- Bits 11:0, which the core does not inspect for `io` (R60, R141). -/
def ioPayload (iw : Word) : BitVec 12 := iw.extractLsb' 0 12

/-- `Class(f)` of an operand field (R53): 0 to 3 REG, 0xE IMM, 0xF MEM, the rest INVALID.
Codes 4 to 6 are INVALID by D4 (log 9), safe. -/
def classOf (f : Nibble) : OperandClass :=
  if f.toNat < 4 then .reg else if f = 0xE then .imm else if f = 0xF then .mem else .invalid

/-- The register of a REG field: codes 0 to 3 are A to D (R12). -/
def regOf (f : Nibble) : Reg :=
  match f.toNat with
  | 0 => .a
  | 1 => .b
  | 2 => .c
  | _ => .d

/-- An operand field that consumes an operand word: IMM or MEM (R53, R83). -/
def takesWord (f : Nibble) : Bool :=
  match classOf f with
  | .reg => false
  | .imm => true
  | .mem => true
  | .invalid => false

/-- The operand of a field whose operand word, if it takes one, is `w` (R53). None for an INVALID code. -/
def operandOf (f : Nibble) (w : Word) : Option Operand :=
  match classOf f with
  | .reg => some (.reg (regOf f))
  | .imm => some (.imm w)
  | .mem => some (.mem w)
  | .invalid => none

/-- The mnemonic of an opcode (R56). All 16 values are assigned. -/
def mnemonicOf (op : Nibble) : Mnemonic :=
  match op.toNat with
  | 0x0 => .mv
  | 0x1 => .io
  | 0x2 => .push
  | 0x3 => .pop
  | 0x4 => .add
  | 0x5 => .sub
  | 0x6 => .inc
  | 0x7 => .dec
  | 0x8 => .and
  | 0x9 => .or
  | 0xA => .not
  | 0xB => .cmp
  | 0xC => .call
  | 0xD => .jnz
  | 0xE => .ret
  | _ => .hlt

/-- The opcode of a mnemonic (R56). -/
def opcodeBits : Mnemonic → Nibble
  | .mv => 0x0
  | .io => 0x1
  | .push => 0x2
  | .pop => 0x3
  | .add => 0x4
  | .sub => 0x5
  | .inc => 0x6
  | .dec => 0x7
  | .and => 0x8
  | .or => 0x9
  | .not => 0xA
  | .cmp => 0xB
  | .call => 0xC
  | .jnz => 0xD
  | .ret => 0xE
  | .hlt => 0xF

/-- Why the decoder refuses a word. Each is the spec's `InvalidOperand` (R59, R151). -/
inductive DecodeError where
  /-- The source field holds an INVALID code. -/
  | sourceField
  /-- The destination field holds an INVALID code. -/
  | destinationField
  /-- A location position holds an IMM operand (R58). -/
  | immediateLocation
deriving DecidableEq, Repr

/-- The class check of R58, made on the whole instruction (R82). -/
def checkClasses (i : Instr) : Except DecodeError Instr :=
  if i.wellFormed then .ok i else .error .immediateLocation

/-- A two-operand instruction: the source operand's word comes first (R54). -/
def decodeTwo (mk : Operand → Operand → Instr) (iw w1 w2 : Word) : Except DecodeError Instr :=
  match operandOf (srcField iw) w1 with
  | none => .error .sourceField
  | some src =>
    match operandOf (dstField iw) (if takesWord (srcField iw) then w2 else w1) with
    | none => .error .destinationField
    | some dst => checkClasses (mk src dst)

/-- A one-operand instruction: the operand is in `src_field` whatever its role, and `dst_field` is ignored (R57, R52). -/
def decodeOne (mk : Operand → Instr) (iw w1 : Word) : Except DecodeError Instr :=
  match operandOf (srcField iw) w1 with
  | none => .error .sourceField
  | some o => checkClasses (mk o)

/-- Decode the instruction whose instruction word is `iw` and whose following two words are `w1` and `w2`.
Bits the instruction does not use are ignored (R52, D2, log 7). The form of `not` is D3 (log 8). -/
def decode (iw w1 w2 : Word) : Except DecodeError Instr :=
  match mnemonicOf (opcodeOf iw) with
  | .mv => decodeTwo .mv iw w1 w2
  | .io => .ok (.io (ioPayload iw))
  | .push => decodeOne .push iw w1
  | .pop => decodeOne .pop iw w1
  | .add => decodeTwo .add iw w1 w2
  | .sub => decodeTwo .sub iw w1 w2
  | .inc => decodeOne .inc iw w1
  | .dec => decodeOne .dec iw w1
  | .and => decodeTwo .and iw w1 w2
  | .or => decodeTwo .or iw w1 w2
  | .not => decodeOne .not iw w1
  | .cmp => decodeTwo .cmp iw w1 w2
  | .call => decodeOne .call iw w1
  | .jnz => decodeOne .jnz iw w1
  | .ret => .ok .ret
  | .hlt => .ok .hlt

/-- How many operand words an operand takes (R53). -/
def operandLength : Operand → Nat
  | .reg _ => 0
  | .imm _ => 1
  | .mem _ => 1

/-- The length of an instruction in words (R50, R55). -/
def instrLength : Instr → Nat
  | .mv src dst => 1 + operandLength src + operandLength dst
  | .io _ => 1
  | .push src => 1 + operandLength src
  | .pop dst => 1 + operandLength dst
  | .add src dst => 1 + operandLength src + operandLength dst
  | .sub src dst => 1 + operandLength src + operandLength dst
  | .inc target => 1 + operandLength target
  | .dec target => 1 + operandLength target
  | .and src dst => 1 + operandLength src + operandLength dst
  | .or src dst => 1 + operandLength src + operandLength dst
  | .not target => 1 + operandLength target
  | .cmp src dst => 1 + operandLength src + operandLength dst
  | .call target => 1 + operandLength target
  | .jnz target => 1 + operandLength target
  | .ret => 1
  | .hlt => 1

/-- Decode the first instruction of a stream of words, and the words after it. None where the decoder refuses the
instruction word or the stream ends inside the instruction. -/
def decodeWords (ws : List Word) : Option (Instr × List Word) :=
  match ws with
  | [] => none
  | iw :: rest =>
    match decode iw (rest.getD 0 0) (rest.getD 1 0) with
    | .error _ => none
    | .ok i => if instrLength i ≤ ws.length then some (i, ws.drop (instrLength i)) else none

/-! ### The encoder -/

/-- The operand code of a register (R12, R53). -/
def regField : Reg → Nibble
  | .a => 0
  | .b => 1
  | .c => 2
  | .d => 3

/-- The operand code of an operand (R53). -/
def operandField : Operand → Nibble
  | .reg r => regField r
  | .imm _ => 0xE
  | .mem _ => 0xF

/-- The operand word of an operand, if it takes one (R53, R62). -/
def operandWords : Operand → List Word
  | .reg _ => []
  | .imm k => [k]
  | .mem a => [a]

/-- The instruction word of an opcode and two operand fields, unused bits 0 (R51, R52). -/
def packWord (m : Mnemonic) (src dst : Nibble) : Word := opcodeBits m ++ src ++ dst ++ (0 : Nibble)

/-- The instruction word of an instruction (section 5 of 30_encoding.md). An `io` keeps its uninspected bits. -/
def instrWord : Instr → Word
  | .mv src dst => packWord .mv (operandField src) (operandField dst)
  | .io payload => opcodeBits .io ++ payload
  | .push src => packWord .push (operandField src) 0
  | .pop dst => packWord .pop (operandField dst) 0
  | .add src dst => packWord .add (operandField src) (operandField dst)
  | .sub src dst => packWord .sub (operandField src) (operandField dst)
  | .inc target => packWord .inc (operandField target) 0
  | .dec target => packWord .dec (operandField target) 0
  | .and src dst => packWord .and (operandField src) (operandField dst)
  | .or src dst => packWord .or (operandField src) (operandField dst)
  | .not target => packWord .not (operandField target) 0
  | .cmp src dst => packWord .cmp (operandField src) (operandField dst)
  | .call target => packWord .call (operandField target) 0
  | .jnz target => packWord .jnz (operandField target) 0
  | .ret => packWord .ret 0 0
  | .hlt => packWord .hlt 0 0

/-- The operand words of an instruction, source first (R54). -/
def instrOperandWords : Instr → List Word
  | .mv src dst => operandWords src ++ operandWords dst
  | .io _ => []
  | .push src => operandWords src
  | .pop dst => operandWords dst
  | .add src dst => operandWords src ++ operandWords dst
  | .sub src dst => operandWords src ++ operandWords dst
  | .inc target => operandWords target
  | .dec target => operandWords target
  | .and src dst => operandWords src ++ operandWords dst
  | .or src dst => operandWords src ++ operandWords dst
  | .not target => operandWords target
  | .cmp src dst => operandWords src ++ operandWords dst
  | .call target => operandWords target
  | .jnz target => operandWords target
  | .ret => []
  | .hlt => []

/-- The words of an instruction (R50, R68). -/
def encode (i : Instr) : List Word := instrWord i :: instrOperandWords i

/-- The bits of an instruction word that the instruction does not use (R52): emitted as 0, ignored by the decoder. The
low bits of `io` are not inspected either, but they are part of what the fault reports (R141). -/
def unusedBits : Mnemonic → Word
  | .mv => 0x000F
  | .io => 0x0000
  | .push => 0x00FF
  | .pop => 0x00FF
  | .add => 0x000F
  | .sub => 0x000F
  | .inc => 0x00FF
  | .dec => 0x00FF
  | .and => 0x000F
  | .or => 0x000F
  | .not => 0x00FF
  | .cmp => 0x000F
  | .call => 0x00FF
  | .jnz => 0x00FF
  | .ret => 0x0FFF
  | .hlt => 0x0FFF

/-- An instruction word with its unused bits cleared (R52). -/
def canonicalWord (iw : Word) : Word := iw &&& ~~~unusedBits (mnemonicOf (opcodeOf iw))

/-! ### The opcode table's numbering -/

/-- Word `k` of an instruction numbered as spec/opcode_table.json numbers it: bit 0 of `w` is bit 0 of the first
word, and a later word's bits count on from bit 16 times its number. Bits from `nbits` up are 0. -/
def tableWord (nbits w k : Nat) : Word := BitVec.ofNat 16 (w % 2 ^ nbits / 2 ^ (16 * k))

/-- The instruction the decoder reads from table bits `w`, operand words beyond `nbits` being 0. -/
def decodeTableWord (nbits w : Nat) : Option Instr :=
  match decode (tableWord nbits w 0) (tableWord nbits w 1) (tableWord nbits w 2) with
  | .error _ => none
  | .ok i => some i

end Sys2Proof
end

