-- ==== Sys2Proof/Config.lean ====
section
/-! DEFINITION. What is fixed for one machine: the fixed sizes (spec 00_scope.md R5) and the open parameters (R6). -/

namespace Sys2Proof

/-- `MEM_WORDS`: the number of memory cells (R5, R30). -/
def Config.memWords : Nat := 65536

/-- `ORIGIN`: the address of the first loaded word and the reset value of `ip` (R5). -/
def Config.origin : Word := 0x4000

/-- `STACK_BASE`: the reset value of `sp` and of `bp`. The spec leaves it an open parameter with no constraint
(R6, D12), so it is a constant without a body: nothing can be proved about its value.
DESIGN CHOICE (log 1), safe: every claim holds for every stack base. -/
opaque Config.stackBase : Word

/-- The assembler's one parameter. -/
structure Config.AsmParams where
  /-- `ASM_SPECIAL_REGS` (R6, R66, D4): whether the operand names `ip`, `sp`, `bp` are emitted as codes 4, 5, 6
  (true) or refused (false, the default). The core treats these codes as invalid either way. -/
  specialRegs : Bool := false
deriving DecidableEq, Repr

end Sys2Proof
end

