-- ==== Sys2Proof/Machine/State.lean ====
section
/-! DEFINITION. The machine's state (spec 10_state.md R10), the reasons a step can stop, and the state after reset. -/

namespace Sys2Proof.Machine

/-- The general registers A, B, C, D (R12). -/
structure Regs where
  a : Word
  b : Word
  c : Word
  d : Word
deriving DecidableEq, Repr

/-- The memory: 65536 cells of 16 bits (R30), as a list of (address, cell) pairs with addresses strictly rising.
A cell not listed holds 0 (R28), and no listed cell holds 0, so equal memories are equal lists. The cell is the
spec's word: nothing smaller is addressable (R31). DESIGN CHOICE of form (log 2), safe. -/
abbrev Memory := List (Nat × Word)

/-- The causes of a fault (R151). -/
inductive Cause where
  | invalidOpcode
  | invalidOperand
deriving DecidableEq, Repr

/-- The run state (R10, R150). -/
inductive RunState where
  | running
  | halted
  /-- `Faulted(cause)`, with the instruction word that `raise` gives for diagnosis (R151, R153; log 4). -/
  | faulted (cause : Cause) (iw : Word)
deriving DecidableEq, Repr

/-- The complete architectural state (R10). -/
structure State where
  regs  : Regs
  ip    : Word
  sp    : Word
  bp    : Word
  flags : Word
  mem   : Memory
  run   : RunState
deriving DecidableEq, Repr

/-- Why the machine takes no step. An exception that an instruction raises is no `Fault`: it is a next state whose
`run` is `faulted` (R150, log 3). Both are raised by `step` alone, from a state in which the core has no step (R80);
safe: nothing is claimed to happen. -/
inductive Fault where
  /-- `run = Halted` is terminal (R80, R91). -/
  | halted
  /-- `run = Faulted(cause)` is terminal (R80, R150). -/
  | faulted (cause : Cause) (iw : Word)
deriving DecidableEq, Repr

/-- Why an instruction is refused. -/
inductive Refusal where
  /-- Raised by `exec` for an instruction without a meaning; safe. No arm of `exec` raises it. -/
  | notModelled (mnemonic : String)
deriving DecidableEq, Repr

/-- What an instruction or a step answers. -/
abbrev Result := Host.Outcome State Fault Refusal

/-- The state after reset (R28): every cell 0, `ip` the origin, `sp` and `bp` the open stack base. -/
def State.reset : State where
  regs  := ⟨0, 0, 0, 0⟩
  ip    := Config.origin
  sp    := Config.stackBase
  bp    := Config.stackBase
  flags := 0
  mem   := []
  run   := .running

end Sys2Proof.Machine
end

