-- ==== Sys2Proof/Machine/Ops.lean ====
section
/-! DEFINITION. The named operations over registers, memory, stack and run state that every meaning uses. -/

namespace Sys2Proof.Machine

/-! ### General registers (R12, R13) -/

/-- The value of a general register. -/
def getReg (g : Regs) : Reg → Word
  | .a => g.a
  | .b => g.b
  | .c => g.c
  | .d => g.d

/-- The registers after a write to one of them. -/
def setReg (g : Regs) (r : Reg) (v : Word) : Regs :=
  match r with
  | .a => { g with a := v }
  | .b => { g with b := v }
  | .c => { g with c := v }
  | .d => { g with d := v }

/-! ### Memory (R30, R32) -/

/-- What a cell that is not listed holds: memory is zero-initialised (R28). -/
def unlistedCell : Word := 0

/-- `mem[k]`. -/
def memRead : Memory → Nat → Word
  | [], _ => unlistedCell
  | (j, v) :: rest, k => if j = k then v else memRead rest k

/-- The memory without what it lists for an address. -/
def memErase : Memory → Nat → Memory
  | [], _ => []
  | (j, u) :: rest, k => if j = k then memErase rest k else (j, u) :: memErase rest k

/-- The memory with one more listed cell, before the first higher address. -/
def memInsert : Memory → Nat → Word → Memory
  | [], k, v => [(k, v)]
  | (j, u) :: rest, k, v => if k < j then (k, v) :: (j, u) :: rest else (j, u) :: memInsert rest k v

/-- `mem[k] <- v`. A cell that is to hold what an unlisted cell holds is not listed. -/
def memWrite (m : Memory) (k : Nat) (v : Word) : Memory :=
  if v = unlistedCell then memErase m k else memInsert (memErase m k) k v

/-- Addresses strictly rising from `lo` up and inside the address space, no listed cell holding 0. -/
def memWfFrom (lo : Nat) : Memory → Bool
  | [] => true
  | (j, v) :: rest => decide (lo ≤ j) && decide (j < Config.memWords) && decide (v ≠ unlistedCell) && memWfFrom (j + 1) rest

/-- The memory is in canonical form. -/
def Memory.wf (m : Memory) : Bool := memWfFrom 0 m

/-- `MemRead(a, 1)` (R32): no side effect, cannot fail. -/
def State.cell (s : State) (a : Word) : Word := memRead s.mem a.toNat

/-- `MemWrite(a, 1, v)` (R32): changes no other cell, cannot fail. -/
def State.store (s : State) (a v : Word) : State := { s with mem := memWrite s.mem a.toNat v }

/-! ### Instruction pointer and stack -/

/-- `ip` advanced past `n` words, modulo 65536 (R14, R16, R81). -/
def State.advance (s : State) (n : Nat) : State := { s with ip := s.ip + BitVec.ofNat 16 n }

/-- `Push(v)` (R89): write `mem[sp]`, then increment `sp`. -/
def State.push (s : State) (v : Word) : State := { s.store s.sp v with sp := s.sp + 1 }

/-- The state after `Pop()` (R90): `sp` decremented. -/
def State.popped (s : State) : State := { s with sp := s.sp - 1 }

/-- The value `Pop()` returns (R90): `mem[sp]` with `sp` already decremented. -/
def State.popValue (s : State) : Word := s.popped.cell s.popped.sp

/-! ### Taking an exception -/

/-- `raise cause(iw)` (R150, R152, R157): the run state becomes `Faulted(cause)` and nothing else changes. There is no
handler, no saved state and no return (R158), so there is no operation beside this one. `ip` is already past the
instruction word (R81). -/
def State.raise (s : State) (cause : Cause) (iw : Word) : State := { s with run := .faulted cause iw }

end Sys2Proof.Machine
end

