-- ==== Sys2Proof/Machine/Flags.lean ====
section
/-! DEFINITION. The flags register (spec 10_state.md R20 to R27) and its two updates (40_execution_model.md R88). -/

namespace Sys2Proof.Machine

/-- Bit 0: positive (R20). -/
def flagPos : Word := 0x0001
/-- Bit 1: zero (R20). -/
def flagZero : Word := 0x0002
/-- Bit 2: negative (R20). -/
def flagNeg : Word := 0x0004
/-- Bit 4: less (R20). -/
def flagLess : Word := 0x0010
/-- Bit 5: equal (R20). -/
def flagEqual : Word := 0x0020
/-- Bit 6: greater (R20). -/
def flagGreater : Word := 0x0040
/-- Bit 8: halt (R20). -/
def flagHalt : Word := 0x0100

/-- `RESULT_MASK`: bits 2:0. -/
def resultMask : Word := 0x0007
/-- `COMPARE_MASK`: bits 6:4. -/
def compareMask : Word := 0x0070

/-- Bits 3, 7 and 15:9, which no rule writes (R24). -/
def unusedMask : Word := 0xFE88

/-- The positive bit. -/
def posSet (flags : Word) : Bool := flags.getLsbD 0

/-- The negative bit. -/
def negSet (flags : Word) : Bool := flags.getLsbD 2

/-- The less bit. -/
def lessSet (flags : Word) : Bool := flags.getLsbD 4

/-- The equal bit. -/
def equalSet (flags : Word) : Bool := flags.getLsbD 5

/-- The greater bit. -/
def greaterSet (flags : Word) : Bool := flags.getLsbD 6

/-- The zero bit, the only result flag an instruction reads (R132). -/
def zeroSet (flags : Word) : Bool := flags.getLsbD 1

/-- The halt bit, which the run loop reads (R91). -/
def haltSet (flags : Word) : Bool := flags.getLsbD 8

/-- Which result flag a 16-bit result sets (R21, R88): zero if 0, negative if bit 15 is set, positive otherwise.
DESIGN CHOICE of the spec, D8 (log 12), unsafe. -/
def resultFlag (r : Word) : Word := if r = 0 then flagZero else if r.getLsbD 15 then flagNeg else flagPos

/-- Which compare flag `cmp` sets for source `sv` and destination `dv`, unsigned (R22, R88).
DESIGN CHOICE of the spec, D9 (log 13), unsafe. -/
def compareFlag (sv dv : Word) : Word := if sv < dv then flagLess else if sv = dv then flagEqual else flagGreater

/-- `SetResultFlags(r)` on the flags word: bits 2:0 rewritten, the rest kept (R25, D10, log 14). -/
def withResultFlags (flags r : Word) : Word := (flags &&& ~~~resultMask) ||| resultFlag r

/-- `SetCompareFlags(sv, dv)` on the flags word: bits 6:4 rewritten, the rest kept (R25, D10, log 14). -/
def withCompareFlags (flags sv dv : Word) : Word := (flags &&& ~~~compareMask) ||| compareFlag sv dv

/-- The halt flag set, the rest kept (R23, R140). -/
def withHaltFlag (flags : Word) : Word := flags ||| flagHalt

end Sys2Proof.Machine
end

