-- ==== Sys2Proof/Machine/Operands.lean ====
section
/-! DEFINITION. Reading and writing an operand (spec 40_execution_model.md R83 to R87) and the read, combine, write-back
shape that the arithmetic instructions share (42_arithmetic_logic.md R110, R114). -/

namespace Sys2Proof.Machine

/-- `ReadOperand` (R84). -/
def State.operand (s : State) : Operand → Word
  | .reg r => getReg s.regs r
  | .imm k => k
  | .mem a => s.cell a

/-- `WriteOperand` (R85): never touches `flags`. Only called with a location: an IMM is excluded by the class check
(R58, R82), and nothing is written for it. -/
def State.setOperand (s : State) (o : Operand) (v : Word) : State :=
  match o with
  | .reg r => { s with regs := setReg s.regs r v }
  | .imm _ => s
  | .mem a => s.store a v

/-- Write a result back: the operand, then the result flags if it is a register (R21, R119). -/
def State.setResult (s : State) (o : Operand) (r : Word) : State :=
  let t := s.setOperand o r
  if o.isReg then { t with flags := withResultFlags t.flags r } else t

/-- `dst <- dst op src` (R110): the source value is read before the destination is written (R86). -/
def State.binary (s : State) (op : Word → Word → Word) (src dst : Operand) : State :=
  s.setResult dst (op (s.operand dst) (s.operand src))

/-- `target <- op target` (R114). -/
def State.unary (s : State) (op : Word → Word) (target : Operand) : State :=
  s.setResult target (op (s.operand target))

/-- The class check of R82 in front of an instruction's effect. The decoder yields only instructions that pass
(R58), so in a step the effect is what happens; an ill-formed term raises `InvalidOperand` and has no effect.
DESIGN CHOICE (log 11), safe: no run reaches such a term. -/
def validated (i : Instr) (s effect : State) : Result :=
  .next (if i.wellFormed then effect else s.raise .invalidOperand (instrWord i))

end Sys2Proof.Machine
end

