-- ==== Sys2Proof/Machine/Arithmetic.lean ====
section
/-! DEFINITION. `add`, `sub`, `and`, `or`, `not`, `inc`, `dec` (spec 42_arithmetic_logic.md). All exact modulo 65536 (R117);
of two arguments the first is the destination's old value. -/

namespace Sys2Proof.Machine

/-- `(dv + sv) mod 2^16` (R110). -/
def aluAdd (dv sv : Word) : Word := dv + sv
/-- `(dv - sv) mod 2^16` (R111): destination minus source. -/
def aluSub (dv sv : Word) : Word := dv - sv
/-- `dv & sv` (R112). -/
def aluAnd (dv sv : Word) : Word := dv &&& sv
/-- `dv | sv` (R113). -/
def aluOr (dv sv : Word) : Word := dv ||| sv
/-- `~v` (R114). -/
def aluNot (v : Word) : Word := ~~~v
/-- `(v + 1) mod 2^16` (R115). -/
def aluInc (v : Word) : Word := v + 1
/-- `(v - 1) mod 2^16` (R116). -/
def aluDec (v : Word) : Word := v - 1

/-- `add src, dst` (R110). -/
def execAdd (src dst : Operand) (s : State) : Result := validated (.add src dst) s (s.binary aluAdd src dst)

/-- `sub src, dst` (R111). -/
def execSub (src dst : Operand) (s : State) : Result := validated (.sub src dst) s (s.binary aluSub src dst)

/-- `and src, dst` (R112). -/
def execAnd (src dst : Operand) (s : State) : Result := validated (.and src dst) s (s.binary aluAnd src dst)

/-- `or src, dst` (R113). -/
def execOr (src dst : Operand) (s : State) : Result := validated (.or src dst) s (s.binary aluOr src dst)

/-- `not target` (R114): one operand, in `src_field` (D3, log 8). -/
def execNot (target : Operand) (s : State) : Result := validated (.not target) s (s.unary aluNot target)

/-- `inc target` (R115). -/
def execInc (target : Operand) (s : State) : Result := validated (.inc target) s (s.unary aluInc target)

/-- `dec target` (R116). -/
def execDec (target : Operand) (s : State) : Result := validated (.dec target) s (s.unary aluDec target)

end Sys2Proof.Machine
end

