-- ==== Sys2Proof/Machine/Compare.lean ====
section
/-! DEFINITION. `cmp` (spec 43_compare.md). -/

namespace Sys2Proof.Machine

/-- `cmp src, dst` (R125): the source against the destination's current value, flags for register and memory operands
alike, nothing else written. -/
def execCmp (src dst : Operand) (s : State) : Result :=
  validated (.cmp src dst) s { s with flags := withCompareFlags s.flags (s.operand src) (s.operand dst) }

end Sys2Proof.Machine
end

