-- ==== Sys2Proof/Machine/Control.lean ====
section
/-! DEFINITION. `call`, `ret`, `jnz` (spec 44_control_transfer.md). Targets are absolute word addresses, taken as ordinary
operand values (R133, D7, log 10). -/

namespace Sys2Proof.Machine

/-- `call target` (R130): the target is read before the return address is written (D18, log 17). -/
def execCall (target : Operand) (s : State) : Result :=
  validated (.call target) s { s.push s.ip with ip := s.operand target }

/-- `ret` (R131). -/
def execRet (s : State) : Result :=
  validated .ret s { s.popped with ip := s.popValue }

/-- `jnz target` (R132): jump if the zero flag is clear. -/
def execJnz (target : Operand) (s : State) : Result :=
  validated (.jnz target) s (if zeroSet s.flags then s else { s with ip := s.operand target })

end Sys2Proof.Machine
end

