-- ==== Sys2Proof/Machine/DataMovement.lean ====
section
/-! DEFINITION. `mv`, `push`, `pop` (spec 41_data_movement.md). In every meaning `ip` is already past the whole instruction
(40_execution_model.md R81, R83). -/

namespace Sys2Proof.Machine

/-- `mv src, dst` (R100): no flag changes, for any destination. -/
def execMv (src dst : Operand) (s : State) : Result :=
  validated (.mv src dst) s (s.setOperand dst (s.operand src))

/-- `push src` (R101). -/
def execPush (src : Operand) (s : State) : Result :=
  validated (.push src) s (s.push (s.operand src))

/-- `pop dst` (R102): `sp` is decremented and the cell read before the destination is written. -/
def execPop (dst : Operand) (s : State) : Result :=
  validated (.pop dst) s (s.popped.setOperand dst s.popValue)

end Sys2Proof.Machine
end

