-- ==== Sys2Proof/Machine/System.lean ====
section
/-! DEFINITION. `hlt`, `io` (spec 45_system.md). -/

namespace Sys2Proof.Machine

/-- `hlt` (R140): the halt flag; the run state follows in the halt check of the same step (R91). -/
def execHlt (s : State) : Result :=
  validated .hlt s { s with flags := withHaltFlag s.flags }

/-- `io` (R141): raises `InvalidOpcode`, whatever its low 12 bits; no other effect (D13, log 15). -/
def execIo (payload : BitVec 12) (s : State) : Result :=
  .next (s.raise .invalidOpcode (instrWord (.io payload)))

end Sys2Proof.Machine
end

