-- ==== Sys2Proof/Machine/Dispatch.lean ====
section
/-! DEFINITION. One arm per instruction; each calls its meaning. -/

namespace Sys2Proof.Machine

def exec (i : Instr) (s : State) : Host.Outcome State Fault Refusal :=
  match i with
  | .mv src dst => Sys2Proof.Machine.execMv src dst s
  | .io payload => Sys2Proof.Machine.execIo payload s
  | .push src => Sys2Proof.Machine.execPush src s
  | .pop dst => Sys2Proof.Machine.execPop dst s
  | .add src dst => Sys2Proof.Machine.execAdd src dst s
  | .sub src dst => Sys2Proof.Machine.execSub src dst s
  | .inc target => Sys2Proof.Machine.execInc target s
  | .dec target => Sys2Proof.Machine.execDec target s
  | .and src dst => Sys2Proof.Machine.execAnd src dst s
  | .or src dst => Sys2Proof.Machine.execOr src dst s
  | .not target => Sys2Proof.Machine.execNot target s
  | .cmp src dst => Sys2Proof.Machine.execCmp src dst s
  | .call target => Sys2Proof.Machine.execCall target s
  | .jnz target => Sys2Proof.Machine.execJnz target s
  | .ret => Sys2Proof.Machine.execRet s
  | .hlt => Sys2Proof.Machine.execHlt s

end Sys2Proof.Machine
end

