-- ==== Sys2Proof/Machine/Fetch.lean ====
section
/-! DEFINITION. Fetch, the halt check, and what a step does around `exec` (spec 40_execution_model.md R80, R81, R91). -/

namespace Sys2Proof.Machine

/-- The instruction word at `ip` (R81). -/
def State.fetchWord (s : State) : Word := s.cell s.ip

/-- The instruction at `ip`. The two words after the instruction word are read here with it; an instruction that does
not use them is not affected, since a read has no effect (R32, R37; log 18). Addresses wrap (R16). -/
def State.fetchInstr (s : State) : Except DecodeError Instr :=
  decode s.fetchWord (s.cell (s.ip + 1)) (s.cell (s.ip + 2))

/-- The cause a refused word raises: every field error is `InvalidOperand` (R151, R156). -/
def decodeCause : DecodeError → Cause
  | .sourceField => .invalidOperand
  | .destinationField => .invalidOperand
  | .immediateLocation => .invalidOperand

/-- `Validate` raised (R82, R152): `ip` past the instruction word alone, nothing else changed. -/
def State.refuseWord (s : State) (e : DecodeError) : State :=
  (s.advance 1).raise (decodeCause e) s.fetchWord

/-- The halt check (R91), made at the end of a step that did not raise (log 19). -/
def State.haltCheck (s : State) : State :=
  if s.run = .running ∧ haltSet s.flags = true then { s with run := .halted } else s

/-- The halt check on what `exec` answers. -/
def haltCheckResult : Result → Result
  | .next t => .next t.haltCheck
  | .fault r => .fault r
  | .refused r => .refused r

/-- The words of an instruction given by the opcode table's bits, stored where the next fetch reads them, with the core
running. It stands for the host's load of a program (log 21). -/
def State.placeTableWords (s : State) (nbits w : Nat) : State :=
  { ((s.store s.ip (tableWord nbits w 0)).store (s.ip + 1) (tableWord nbits w 1)).store (s.ip + 2) (tableWord nbits w 2)
    with run := .running }

end Sys2Proof.Machine
end

