-- ==== Sys2Proof/Machine/Step.lean ====
section
/-! DEFINITION. One step of the core (spec 40_execution_model.md R80). -/

namespace Sys2Proof.Machine

/-- One whole instruction: fetch, decode and validate, execute, halt check (R80). The core has a step only when it is
running; `Halted` and `Faulted` are terminal (log 5). -/
def step (s : State) : Host.Outcome State Fault Refusal :=
  match s.run with
  | .halted => .fault .halted
  | .faulted cause iw => .fault (.faulted cause iw)
  | .running =>
    match s.fetchInstr with
    | .error e => .next (s.refuseWord e)
    | .ok i => haltCheckResult (exec i (s.advance (instrLength i)))

/-- The state whose next step runs the instruction of the table bits `w`. -/
def State.withFetchWord (s : State) (nbits w : Nat) : State := s.placeTableWords nbits w

end Sys2Proof.Machine
end

