-- ==== Sys2Proof/Machine/Loader.lean ====
section
/-! DEFINITION. The host's side: reset, the loader, the outputs and the read-out (spec 00_scope.md R9, 20_memory.md R44 to R47,
70_reset_and_hazards.md R170). -/

namespace Sys2Proof.Machine

/-- The word of two image bytes: the first is bits 7:0, the second bits 15:8 (R33, R44). -/
def wordOfBytes (lo hi : Byte) : Word := hi ++ lo

/-- The words of an image. None for an odd number of bytes (R45, D19). -/
def wordsOfImage : List Byte → Option (List Word)
  | [] => some []
  | [_] => none
  | lo :: hi :: rest => (wordsOfImage rest).map (wordOfBytes lo hi :: ·)

/-- The two image bytes of a word, low byte first (R75). -/
def bytesOfWord (w : Word) : List Byte := [w.extractLsb' 0 8, w.extractLsb' 8 8]

/-- The image of a list of words: no header, no length, no checksum (R75). -/
def imageOfWords (ws : List Word) : List Byte := ws.flatMap bytesOfWord

/-- Words placed in consecutive cells from `a` up (R44). -/
def State.placeWords (s : State) (a : Word) : List Word → State
  | [] => s
  | w :: ws => (s.store a w).placeWords (a + 1) ws

/-- Why the loader refuses an image (R45). DESIGN CHOICE of the spec, D19 (log 21), safe: the core is not started. -/
inductive LoadError where
  | oddLength
  | tooLong
deriving DecidableEq, Repr

/-- The words that fit between the origin and the end of the address space: 49152 (R45). -/
def maxImageWords : Nat := Config.memWords - Config.origin.toNat

/-- The loader (R44, R45): the image's words from the origin up, every other cell as it was. -/
def loadImage (image : List Byte) (s : State) : Except LoadError State :=
  match wordsOfImage image with
  | none => .error .oddLength
  | some ws => if ws.length ≤ maxImageWords then .ok (s.placeWords Config.origin ws) else .error .tooLong

/-- The `reset` input (R9 a): whatever the core was doing, the state of R28. No state survives it (R47, R158). -/
def hostReset (_ : State) : State := State.reset

/-- A run begins with a reset and a load (R170). -/
def boot (image : List Byte) : Except LoadError State := loadImage image State.reset

/-- The `halted` output level: bit 8 of the flags register (R9 d). -/
def haltedOutput (s : State) : Bool := haltSet s.flags

/-- The `fault` output level with its cause and the instruction word `raise` gave (R9 e, R153). -/
def faultOutput (s : State) : Option (Cause × Word) :=
  match s.run with
  | .running => none
  | .halted => none
  | .faulted cause iw => some (cause, iw)

/-- The state read-out: registers, flags, run state and the non-zero memory map (R9 f, R46). -/
structure ReadOut where
  regs  : Regs
  ip    : Word
  sp    : Word
  bp    : Word
  flags : Word
  cells : List (Nat × Word)
  run   : RunState
deriving DecidableEq, Repr

/-- The host may read the state when the core is not running, and has no move while it is (R9 f, R46). -/
def readOut (s : State) : Option ReadOut :=
  if s.run = .running then none
  else some { regs := s.regs, ip := s.ip, sp := s.sp, bp := s.bp, flags := s.flags, cells := s.mem, run := s.run }

end Sys2Proof.Machine
end

