-- ==== Sys2Proof/Machine/Assembler.lean ====
section
/-! DEFINITION. The assembler as the encoding contract (spec 00_scope.md R3, 30_encoding.md R63 to R78): source text to words,
or a line-numbered error. No rule of the core depends on it. Text is a list of characters. -/

namespace Sys2Proof.Machine

/-- The fatal errors (R74, and the forms the spec leaves to a refusal: log 23, 24, 26). -/
inductive AsmError where
  | unrecognizedMnemonic
  | wrongArity
  | invalidOperandType
  | invalidRegisterName
  | malformedLabel
  | duplicateLabel
  | undefinedLabel
  | nonIntegerData
  /-- `.data` without its mandatory label (R70). -/
  | dataWithoutLabel
  /-- A `.string` argument that is not plain text in quotes (R71, V9). -/
  | malformedString
  /-- `io`, whose syntax and emission are not given (R60, U2). -/
  | ioNotSpecified
deriving DecidableEq, Repr

/-- What stands for a 16-bit value in an operand: a literal, or a label to be looked up in pass 2 (R67). -/
inductive AsmValue where
  | literal (w : Word)
  | label (name : List Char)
deriving DecidableEq, Repr

/-- A classified operand (R65). `special` is `ip`, `sp` or `bp` with its operand code (R66). -/
inductive AsmOperand where
  | reg (r : Reg)
  | special (code : Nibble)
  | imm (v : AsmValue)
  | mem (v : AsmValue)
deriving DecidableEq, Repr

/-- What a line holds beside its label. -/
inductive AsmStatement where
  | empty
  | instr (m : Mnemonic) (operands : List AsmOperand)
  | data (w : Word)
  | text (bytes : List Byte)
deriving DecidableEq, Repr

/-- A line: an optional label, lower-cased, and a statement (R63). -/
structure AsmLine where
  label     : Option (List Char)
  statement : AsmStatement
deriving DecidableEq, Repr

/-- The symbol table: lower-cased label to word address (R73). -/
abbrev Symbols := List (List Char × Word)

/-- What the assembler produces (R72, R75). -/
structure Assembly where
  words   : List Word
  symbols : Symbols
deriving DecidableEq, Repr

/-! ### Characters (R64) -/

def dropSpaces (cs : List Char) : List Char := cs.dropWhile (· == ' ')

def trimSpaces (cs : List Char) : List Char := (dropSpaces (dropSpaces cs).reverse).reverse

def lowerCase (cs : List Char) : List Char := cs.map Char.toLower

/-- The text before the first `c` and the text after it. -/
def splitFirst (c : Char) (cs : List Char) : Option (List Char × List Char) :=
  match cs.dropWhile (· != c) with
  | [] => none
  | _ :: after => some (cs.takeWhile (· != c), after)

/-- The text before the last `c` and the text after it. -/
def splitLast (c : Char) (cs : List Char) : Option (List Char × List Char) :=
  match splitFirst c cs.reverse with
  | none => none
  | some (after, before) => some (before.reverse, after.reverse)

/-- Tabs made spaces, leading white space and a trailing comment dropped (R64). White space is the space and the tab
alone. DESIGN CHOICE (log 30): R64 does not list the characters. -/
def cleanLine (cs : List Char) : List Char :=
  trimSpaces ((cs.map fun c => if c = '\t' then ' ' else c).takeWhile (· != ';'))

/-- An unsigned decimal numeral (R67, D21). -/
def decimalFrom (acc : Nat) : List Char → Option Nat
  | [] => some acc
  | c :: cs => if '0' ≤ c ∧ c ≤ '9' then decimalFrom (acc * 10 + (c.toNat - '0'.toNat)) cs else none

/-- A literal: unsigned decimal, 0 to 65535 (D21, log 23). -/
def literalOf (cs : List Char) : Option Word :=
  match cs with
  | [] => none
  | c :: rest =>
    match decimalFrom 0 (c :: rest) with
    | none => none
    | some n => if n < 65536 then some (BitVec.ofNat 16 n) else none

/-! ### Labels, registers, operands -/

/-- A label name: alphanumeric, not beginning with a digit (R73), stored lower-cased (R63).
DESIGN CHOICE (log 28): a register name or a mnemonic is accepted as a label. Whether a register name may be one is not
stated (R73); `#a` and `[a]` then reach it, since R65 and R67 look at `#` and brackets before register names, while a bare
`a` is the register. Alphanumeric is ASCII.
DESIGN CHOICE (log 32): white space between the name and its colon is dropped. R63, R64 and R73 do not say whether it may
stand there. -/
def labelOf (cs : List Char) : Except AsmError (List Char) :=
  match trimSpaces cs with
  | [] => .error .malformedLabel
  | c :: rest =>
    if (c :: rest).all Char.isAlphanum && !c.isDigit then .ok (lowerCase (c :: rest)) else .error .malformedLabel

/-- A value: a numeral is a literal, anything else a label reference, case-insensitive (R67). -/
def valueOf (cs : List Char) : AsmValue :=
  match literalOf cs with
  | some w => .literal w
  | none => .label (lowerCase cs)

/-- A register name in lower case: a general register, or the code of `ip`, `sp`, `bp` in that order (R66, D29). -/
def registerName (cs : List Char) : Option (Reg ⊕ Nibble) :=
  if cs = ['a'] then some (.inl .a)
  else if cs = ['b'] then some (.inl .b)
  else if cs = ['c'] then some (.inl .c)
  else if cs = ['d'] then some (.inl .d)
  else if cs = ['i', 'p'] then some (.inr 4)
  else if cs = ['s', 'p'] then some (.inr 5)
  else if cs = ['b', 'p'] then some (.inr 6)
  else none

/-- An operand that is neither bracketed nor an immediate: a register, or a bare label or numeral, which is IMM
(R65, D6). A register name with a capital is refused (D22); `ip`, `sp`, `bp` follow the parameter (R66). -/
def bareOperand (p : Config.AsmParams) (cs : List Char) : Except AsmError AsmOperand :=
  match registerName (lowerCase cs) with
  | none => .ok (.imm (valueOf cs))
  | some known =>
    if cs ≠ lowerCase cs then .error .invalidRegisterName
    else
      match known with
      | .inl r => .ok (.reg r)
      | .inr code => if p.specialRegs then .ok (.special code) else .error .invalidRegisterName

/-- Operand classification (R65). A bracket that is not closed is refused (log 24). White space after `#` or inside brackets
is not dropped (log 32). -/
def operandOfText (p : Config.AsmParams) (cs : List Char) : Except AsmError AsmOperand :=
  match cs with
  | '[' :: inner =>
    match inner.reverse with
    | ']' :: body => .ok (.mem (valueOf body.reverse))
    | _ => .error .invalidOperandType
  | '#' :: body => .ok (.imm (valueOf body))
  | _ => bareOperand p cs

def operandsOfTexts (p : Config.AsmParams) : List (List Char) → Except AsmError (List AsmOperand)
  | [] => .ok []
  | t :: ts =>
    match operandOfText p t with
    | .error e => .error e
    | .ok o =>
      match operandsOfTexts p ts with
      | .error e => .error e
      | .ok os => .ok (o :: os)

/-! ### Statements -/

/-- The mnemonics, case-insensitive (R63). -/
def mnemonicOfText (cs : List Char) : Option Mnemonic :=
  let t := lowerCase cs
  if t = ['m', 'v'] then some .mv
  else if t = ['i', 'o'] then some .io
  else if t = ['p', 'u', 's', 'h'] then some .push
  else if t = ['p', 'o', 'p'] then some .pop
  else if t = ['a', 'd', 'd'] then some .add
  else if t = ['s', 'u', 'b'] then some .sub
  else if t = ['i', 'n', 'c'] then some .inc
  else if t = ['d', 'e', 'c'] then some .dec
  else if t = ['a', 'n', 'd'] then some .and
  else if t = ['o', 'r'] then some .or
  else if t = ['n', 'o', 't'] then some .not
  else if t = ['c', 'm', 'p'] then some .cmp
  else if t = ['c', 'a', 'l', 'l'] then some .call
  else if t = ['j', 'n', 'z'] then some .jnz
  else if t = ['r', 'e', 't'] then some .ret
  else if t = ['h', 'l', 't'] then some .hlt
  else none

/-- The operand is an immediate, which no location position accepts (R58, R69). -/
def AsmOperand.isImm : AsmOperand → Bool
  | .reg _ => false
  | .special _ => false
  | .imm _ => true
  | .mem _ => false

/-- An operand list with a location in its last place, of the length asked for (R69). -/
def checkLocation (n : Nat) (os : List AsmOperand) : Except AsmError Unit :=
  if os.length ≠ n then .error .wrongArity
  else if (os.getLast?.map AsmOperand.isImm).getD false then .error .invalidOperandType
  else .ok ()

/-- An operand list of the length asked for (R69). -/
def checkCount (n : Nat) (os : List AsmOperand) : Except AsmError Unit :=
  if os.length ≠ n then .error .wrongArity else .ok ()

/-- Arity and operand types of each mnemonic (R69, R57, R58). -/
def checkOperands (m : Mnemonic) (os : List AsmOperand) : Except AsmError Unit :=
  match m with
  | .mv => checkLocation 2 os
  | .io => .error .ioNotSpecified
  | .push => checkCount 1 os
  | .pop => checkLocation 1 os
  | .add => checkLocation 2 os
  | .sub => checkLocation 2 os
  | .inc => checkLocation 1 os
  | .dec => checkLocation 1 os
  | .and => checkLocation 2 os
  | .or => checkLocation 2 os
  | .not => checkLocation 1 os
  | .cmp => checkLocation 2 os
  | .call => checkCount 1 os
  | .jnz => checkCount 1 os
  | .ret => checkCount 0 os
  | .hlt => checkCount 0 os

/-- The UTF-8 bytes of a text (R71). -/
def textBytes (cs : List Char) : List Byte := cs.flatMap fun c => (String.utf8EncodeChar c).map UInt8.toBitVec

/-- The words of a `.string` (R71): bytes two to a word, the first in bits 7:0 (D23), one NUL appended to an odd number
of bytes and two to an even one. -/
def packText : List Byte → List Word
  | [] => [0]
  | [b] => [wordOfBytes b 0]
  | lo :: hi :: rest => wordOfBytes lo hi :: packText rest

/-- The argument of `.string`: text in double quotes, taken as it stands. An escape or an inner quote is refused (V9). -/
def stringArgument (cs : List Char) : Except AsmError (List Char) :=
  match cs with
  | '"' :: inner =>
    match inner.reverse with
    | '"' :: body =>
      if body.any (fun c => c == '"' || c == '\\') then .error .malformedString else .ok body.reverse
    | _ => .error .malformedString
  | _ => .error .malformedString

/-- A directive at the start of the text, with its argument: `.data` (true) or `.string` (false).
DESIGN CHOICE (log 29): no white space need stand before the argument, so `.data42` is `.data 42`. The spec only shows the
form with a space (R70, R71). Directives are read in lower case (log 24). -/
def directiveOf (cs : List Char) : Option (Bool × List Char) :=
  match cs with
  | '.' :: 'd' :: 'a' :: 't' :: 'a' :: arg => some (true, trimSpaces arg)
  | '.' :: 's' :: 't' :: 'r' :: 'i' :: 'n' :: 'g' :: arg => some (false, trimSpaces arg)
  | _ => none

/-- A directive line (R70, R71). -/
def directiveLine (label : Option (List Char)) (isData : Bool) (arg : List Char) : Except AsmError AsmLine :=
  if isData then
    match label, literalOf arg with
    | none, _ => .error .dataWithoutLabel
    | some _, none => .error .nonIntegerData
    | some l, some w => .ok ⟨some l, .data w⟩
  else
    match stringArgument arg with
    | .error e => .error e
    | .ok t => .ok ⟨label, .text (textBytes t)⟩

/-- The operand texts and the text before them, split from the right (R64): the second operand after the last comma,
the first after the last space before that. A third operand is therefore left in the text before, and the line is an
error (log 31). -/
def splitOperands (cs : List Char) : List Char × List (List Char) :=
  match splitLast ',' cs with
  | none =>
    match splitLast ' ' (trimSpaces cs) with
    | none => (trimSpaces cs, [])
    | some (front, op1) => (trimSpaces front, [op1])
  | some (front, op2) =>
    match splitLast ' ' (trimSpaces front) with
    | none => (trimSpaces front, [[], trimSpaces op2])
    | some (head, op1) => (trimSpaces head, [op1, trimSpaces op2])

/-- A label if a colon precedes the mnemonic, and the mnemonic's text (R64). Only the text before the operands is looked at,
so `start : hlt` has a label, while in `start :` and `start :hlt` the split from the right has already taken the text from
the colon on as an operand, and `start` is an unrecognized mnemonic (DESIGN CHOICE, log 32). -/
def splitLabel (head : List Char) : Except AsmError (Option (List Char) × List Char) :=
  match splitFirst ':' head with
  | none => .ok (none, head)
  | some (l, m) =>
    match labelOf l with
    | .error e => .error e
    | .ok name => .ok (some name, trimSpaces m)

/-- The statement of a mnemonic text and its operand texts. Where the split from the right leaves no mnemonic but one
operand text, as for `start: hlt`, that text is the mnemonic: operands need one (R63; DEDUCED, log 24). -/
def statementOf (p : Config.AsmParams) (mnemonic : List Char) (texts : List (List Char)) :
    Except AsmError AsmStatement :=
  let (m, ts) :=
    match mnemonic, texts with
    | [], [only] => (only, [])
    | _, _ => (mnemonic, texts)
  match m, ts with
  | [], [] => .ok .empty
  | _, _ =>
    match mnemonicOfText m with
    | none => .error .unrecognizedMnemonic
    | some name =>
      match operandsOfTexts p ts with
      | .error e => .error e
      | .ok os =>
        match checkOperands name os with
        | .error e => .error e
        | .ok () => .ok (.instr name os)

/-- A line that is no directive. -/
def instructionLine (p : Config.AsmParams) (cs : List Char) : Except AsmError AsmLine :=
  let (head, texts) := splitOperands cs
  match splitLabel head with
  | .error e => .error e
  | .ok (label, mnemonic) =>
    match statementOf p mnemonic texts with
    | .error e => .error e
    | .ok st => .ok ⟨label, st⟩

/-- One line, independent of the others (R64): a directive, optionally after a label, or else an instruction line. -/
def parseLine (p : Config.AsmParams) (cs : List Char) : Except AsmError AsmLine :=
  let t := cleanLine cs
  match directiveOf t with
  | some (isData, arg) => directiveLine none isData arg
  | none =>
    match splitFirst ':' t with
    | none => instructionLine p t
    | some (l, rest) =>
      match directiveOf (dropSpaces rest) with
      | none => instructionLine p t
      | some (isData, arg) =>
        match labelOf l with
        | .error e => .error e
        | .ok name => directiveLine (some name) isData arg

/-! ### The two passes (R72) -/

/-- The words an operand takes (R53, R68). -/
def asmOperandLength : AsmOperand → Nat
  | .reg _ => 0
  | .special _ => 0
  | .imm _ => 1
  | .mem _ => 1

/-- The words a statement occupies, known in pass 1 (R55, R70, R71, R72). -/
def statementLength : AsmStatement → Nat
  | .empty => 0
  | .instr _ os => 1 + (os.map asmOperandLength).sum
  | .data _ => 1
  | .text bytes => bytes.length / 2 + 1

/-- The address `n` words after the origin. -/
def addressAt (n : Nat) : Word := Config.origin + BitVec.ofNat 16 n

def lookupSymbol (name : List Char) : Symbols → Option Word
  | [] => none
  | (l, w) :: rest => if l = name then some w else lookupSymbol name rest

/-- Pass 1: the lines, numbered from 1, and the symbol table. `n` is the line's number, `k` the words before it. -/
def passOne (p : Config.AsmParams) :
    List (List Char) → (n k : Nat) → Symbols → Except (Nat × AsmError) (List (Nat × AsmLine) × Symbols)
  | [], _, _, syms => .ok ([], syms)
  | text :: more, n, k, syms =>
    match parseLine p text with
    | .error e => .error (n, e)
    | .ok line =>
      match line.label with
      | none =>
        match passOne p more (n + 1) (k + statementLength line.statement) syms with
        | .error e => .error e
        | .ok (lines, out) => .ok ((n, line) :: lines, out)
      | some l =>
        match lookupSymbol l syms with
        | some _ => .error (n, .duplicateLabel)
        | none =>
          match passOne p more (n + 1) (k + statementLength line.statement) (syms ++ [(l, addressAt k)]) with
          | .error e => .error e
          | .ok (lines, out) => .ok ((n, line) :: lines, out)

/-- A value in pass 2 (R67). -/
def resolve (syms : Symbols) : AsmValue → Except AsmError Word
  | .literal w => .ok w
  | .label name =>
    match lookupSymbol name syms with
    | none => .error .undefinedLabel
    | some w => .ok w

/-- The operand code and operand word of an operand (R65, R68). -/
def emitOperand (syms : Symbols) : AsmOperand → Except AsmError (Nibble × List Word)
  | .reg r => .ok (regField r, [])
  | .special code => .ok (code, [])
  | .imm v =>
    match resolve syms v with
    | .error e => .error e
    | .ok w => .ok (0xE, [w])
  | .mem v =>
    match resolve syms v with
    | .error e => .error e
    | .ok w => .ok (0xF, [w])

/-- The words of a statement (R68, R70, R71): one instruction word, then the operand words, source first. -/
def emitStatement (syms : Symbols) : AsmStatement → Except AsmError (List Word)
  | .empty => .ok []
  | .data w => .ok [w]
  | .text bytes => .ok (packText bytes)
  | .instr m [] => .ok [packWord m 0 0]
  | .instr m [o] =>
    match emitOperand syms o with
    | .error e => .error e
    | .ok (f, ws) => .ok (packWord m f 0 :: ws)
  | .instr m (o1 :: o2 :: _) =>
    match emitOperand syms o1 with
    | .error e => .error e
    | .ok (f1, ws1) =>
      match emitOperand syms o2 with
      | .error e => .error e
      | .ok (f2, ws2) => .ok (packWord m f1 f2 :: (ws1 ++ ws2))

/-- Pass 2: the words of all lines in order. -/
def passTwo (syms : Symbols) : List (Nat × AsmLine) → Except (Nat × AsmError) (List Word)
  | [] => .ok []
  | (n, line) :: more =>
    match emitStatement syms line.statement with
    | .error e => .error (n, e)
    | .ok ws =>
      match passTwo syms more with
      | .error e => .error e
      | .ok rest => .ok (ws ++ rest)

/-- The assembler on lines of text: two passes over the same input, errors fatal and line-numbered, no output with
an error (R72, R74). -/
def assemble (p : Config.AsmParams) (lines : List (List Char)) : Except (Nat × AsmError) Assembly :=
  match passOne p lines 1 0 [] with
  | .error e => .error e
  | .ok (parsed, syms) =>
    match passTwo syms parsed with
    | .error e => .error e
    | .ok ws => .ok ⟨ws, syms⟩

/-- The lines of a text. DESIGN CHOICE (log 30): a line ends at LF alone, and a CR stays in the text as an ordinary
character. R63 and R64 do not say what ends a line. -/
def linesOf : List Char → List (List Char)
  | [] => [[]]
  | c :: cs =>
    if c = '\n' then [] :: linesOf cs
    else
      match linesOf cs with
      | [] => [[c]]
      | l :: ls => (c :: l) :: ls

/-- The assembler on a source text. -/
def assembleText (p : Config.AsmParams) (source : String) : Except (Nat × AsmError) Assembly :=
  assemble p (linesOf source.toList)

/-- The image of an assembly, as the loader takes it (R75, R44). -/
def Assembly.image (asm : Assembly) : List Byte := imageOfWords asm.words

/-! ### The symbol listing (R76) -/

def hexDigit (n : Nibble) : Char :=
  if n.toNat < 10 then Char.ofNat ('0'.toNat + n.toNat) else Char.ofNat ('A'.toNat + (n.toNat - 10))

/-- `%04X` of a word. -/
def hexWord (w : Word) : List Char :=
  [hexDigit (w.extractLsb' 12 4), hexDigit (w.extractLsb' 8 4), hexDigit (w.extractLsb' 4 4), hexDigit (w.extractLsb' 0 4)]

/-- One listing line: the address in hexadecimal, the name cut to 16 characters and upper-cased (R76). -/
def listingLine (entry : List Char × Word) : List Char :=
  hexWord entry.2 ++ ' ' :: (entry.1.take 16).map Char.toUpper

/-- The listing, in the order of definition. DESIGN CHOICE (log 31): R76 gives no order. -/
def listing (syms : Symbols) : List (List Char) := syms.map listingLine

end Sys2Proof.Machine
end

