-- ==== Sys2Proof/Machine/Bus.lean ====
section
/-! DEFINITION. What a step presents on the core's memory read and write ports (spec 00_scope.md R9 b, c), in the order of
20_memory.md R37: the instruction word, the operand words, the data reads, at most one write. -/

namespace Sys2Proof.Machine

/-- One access of a memory port (R9). -/
inductive Access where
  /-- The read port: the core presents an address. -/
  | read (a : Word)
  /-- The write port: the core presents an address and a value. -/
  | write (a v : Word)
deriving DecidableEq, Repr

/-- The data read of an operand: a MEM operand's cell (R84). -/
def operandReads : Operand → List Access
  | .reg _ => []
  | .imm _ => []
  | .mem a => [.read a]

/-- The write of a value to an operand: a MEM operand's cell (R85). -/
def operandWrites (o : Operand) (v : Word) : List Access :=
  match o with
  | .reg _ => []
  | .imm _ => []
  | .mem a => [.write a v]

/-- The data reads of an instruction (R37 (3)), from the state `exec` starts in. -/
def dataReads (i : Instr) (s : State) : List Access :=
  match i with
  | .mv src _ => operandReads src
  | .io _ => []
  | .push src => operandReads src
  | .pop _ => [.read s.popped.sp]
  | .add src dst => operandReads src ++ operandReads dst
  | .sub src dst => operandReads src ++ operandReads dst
  | .inc target => operandReads target
  | .dec target => operandReads target
  | .and src dst => operandReads src ++ operandReads dst
  | .or src dst => operandReads src ++ operandReads dst
  | .not target => operandReads target
  | .cmp src dst => operandReads src ++ operandReads dst
  | .call target => operandReads target
  | .jnz target => operandReads target
  | .ret => [.read s.popped.sp]
  | .hlt => []

/-- The write of an instruction (R37 (4)), from the state `exec` starts in. -/
def dataWrites (i : Instr) (s : State) : List Access :=
  match i with
  | .mv src dst => operandWrites dst (s.operand src)
  | .io _ => []
  | .push src => [.write s.sp (s.operand src)]
  | .pop dst => operandWrites dst s.popValue
  | .add src dst => operandWrites dst (aluAdd (s.operand dst) (s.operand src))
  | .sub src dst => operandWrites dst (aluSub (s.operand dst) (s.operand src))
  | .inc target => operandWrites target (aluInc (s.operand target))
  | .dec target => operandWrites target (aluDec (s.operand target))
  | .and src dst => operandWrites dst (aluAnd (s.operand dst) (s.operand src))
  | .or src dst => operandWrites dst (aluOr (s.operand dst) (s.operand src))
  | .not target => operandWrites target (aluNot (s.operand target))
  | .cmp _ _ => []
  | .call _ => [.write s.sp s.ip]
  | .jnz _ => []
  | .ret => []
  | .hlt => []

/-- The reads of the operand words of an instruction of `n` words at `ip` (R37 (2), R83). -/
def operandWordReads (ip : Word) (n : Nat) : List Access :=
  (List.range (n - 1)).map fun k => .read (ip + 1 + BitVec.ofNat 16 k)

/-- Every access of one step, in order (R37). A refused word is read and nothing else is (R82). -/
def stepAccesses (s : State) : List Access :=
  match s.run with
  | .halted => []
  | .faulted _ _ => []
  | .running =>
    .read s.ip ::
      match s.fetchInstr with
      | .error _ => []
      | .ok i =>
        operandWordReads s.ip (instrLength i) ++ dataReads i (s.advance (instrLength i)) ++
          dataWrites i (s.advance (instrLength i))

/-- What an access does to memory (R32): a read changes nothing. -/
def applyAccess (m : Memory) : Access → Memory
  | .read _ => m
  | .write a v => memWrite m a.toNat v

end Sys2Proof.Machine
end

