-- ==== Sys2Proof/Safety.lean ====
section
/-! DEFINITION. The terms the statements use: the end of a run, the invariant of the machine, and frames. -/

namespace Sys2Proof.Machine

/-- The only normal end of a run (R92, R150). -/
def State.Completed (s : State) : Prop := s.run = .halted

/-- A run that ended in a fault, never a successful end (R150). -/
def State.Failed (s : State) : Prop := ∃ cause iw, s.run = .faulted cause iw

/-- At most one of three bits. -/
def atMostOne (p q r : Bool) : Bool := !(p && q) && !(p && r) && !(q && r)

/-- Exactly one of three bits. -/
def exactlyOne (p q r : Bool) : Bool := atMostOne p q r && (p || q || r)

/-- What holds of every reachable state: memory in canonical form, the unused flag bits 0 (R24), at most one result
flag and at most one compare flag (R26), and the halt flag set exactly in the halted state (R23, R91, R150). -/
structure State.Inv (s : State) : Prop where
  memWf   : Memory.wf s.mem = true
  unused  : s.flags &&& unusedMask = 0
  result  : atMostOne (posSet s.flags) (zeroSet s.flags) (negSet s.flags) = true
  compare : atMostOne (lessSet s.flags) (equalSet s.flags) (greaterSet s.flags) = true
  halt    : haltSet s.flags = true ↔ s.run = .halted

/-- The instruction makes a result-flag update: one of the seven of R21, with a register destination. -/
def updatesResultFlags : Instr → Bool
  | .mv _ _ => false
  | .io _ => false
  | .push _ => false
  | .pop _ => false
  | .add _ dst => dst.isReg
  | .sub _ dst => dst.isReg
  | .inc target => target.isReg
  | .dec target => target.isReg
  | .and _ dst => dst.isReg
  | .or _ dst => dst.isReg
  | .not target => target.isReg
  | .cmp _ _ => false
  | .call _ => false
  | .jnz _ => false
  | .ret => false
  | .hlt => false

/-- The instruction makes a compare-flag update: `cmp` alone (R22). -/
def updatesCompareFlags : Instr → Bool
  | .mv _ _ => false
  | .io _ => false
  | .push _ => false
  | .pop _ => false
  | .add _ _ => false
  | .sub _ _ => false
  | .inc _ => false
  | .dec _ => false
  | .and _ _ => false
  | .or _ _ => false
  | .not _ => false
  | .cmp _ _ => true
  | .call _ => false
  | .jnz _ => false
  | .ret => false
  | .hlt => false

/-- The instruction may leave `ip` elsewhere than after itself: `call`, `ret`, `jnz` (R15). -/
def transfersControl : Instr → Bool
  | .mv _ _ => false
  | .io _ => false
  | .push _ => false
  | .pop _ => false
  | .add _ _ => false
  | .sub _ _ => false
  | .inc _ => false
  | .dec _ => false
  | .and _ _ => false
  | .or _ _ => false
  | .not _ => false
  | .cmp _ _ => false
  | .call _ => true
  | .jnz _ => true
  | .ret => true
  | .hlt => false

/-- Every general register but the one the operand names holds in `t` what it held in `s`. -/
def SameRegsBut (o : Operand) (s t : State) : Prop := ∀ r, o ≠ .reg r → getReg t.regs r = getReg s.regs r

/-- Every memory cell but the one the operand names holds in `t` what it held in `s`. -/
def SameCellsBut (o : Operand) (s t : State) : Prop := ∀ a, o ≠ .mem a → t.cell a = s.cell a

/-- Every memory cell but `m` holds in `t` what it held in `s`. -/
def SameCellsButAt (m : Word) (s t : State) : Prop := ∀ a, a ≠ m → t.cell a = s.cell a

/-- Every memory cell holds in `t` what it held in `s`. -/
def SameCells (s t : State) : Prop := ∀ a, t.cell a = s.cell a

/-- Every bit of the flags register outside `mask` is in `g` as in `f`. -/
def SameFlagsOutside (mask f g : Word) : Prop := g &&& ~~~mask = f &&& ~~~mask

/-- `flags` says of the result `r` what R21 and R88 say: zero if it is 0, negative if bit 15 is set and positive
otherwise, exactly one of the three. -/
def ResultFlagsSay (flags r : Word) : Prop :=
  (zeroSet flags = true ↔ r.toNat = 0) ∧ (negSet flags = true ↔ 32768 ≤ r.toNat) ∧
    (posSet flags = true ↔ 0 < r.toNat ∧ r.toNat < 32768)

/-- `flags` says of source `sv` and destination `dv` what R22 and R125 say, comparing unsigned. -/
def CompareFlagsSay (flags sv dv : Word) : Prop :=
  (lessSet flags = true ↔ sv.toNat < dv.toNat) ∧ (equalSet flags = true ↔ sv.toNat = dv.toNat) ∧
    (greaterSet flags = true ↔ dv.toNat < sv.toNat)

end Sys2Proof.Machine
end

