-- ==== Sys2Proof/Certificates/Slice0/Obligations.lean ====
section
/-! DEFINITION. The statements about the machine, for the provers. -/

namespace Sys2Proof.Machine

/-- Nothing but `flags` differs. -/
def OnlyFlagsDiffer (s t : State) : Prop := t = { s with flags := t.flags }

/-- Stack pointer, base pointer, instruction pointer and run state are the same. `ip` is already past the instruction
when `exec` starts, so an instruction that transfers no control leaves it. -/
def SamePointers (s t : State) : Prop := t.ip = s.ip ∧ t.sp = s.sp ∧ t.bp = s.bp ∧ t.run = s.run

/-- An operation `op` wrote its result, of number `r`, to the location `o` (R21, R88, R119): the location holds it;
for a register the result flags say so and the other flag bits are kept; for a memory cell all flags are kept;
no other register, no other cell and no pointer changes. -/
def WritesResult (o : Operand) (r : Nat) (s t : State) : Prop :=
  (t.operand o).toNat = r ∧ SameRegsBut o s t ∧ SameCellsBut o s t ∧ SamePointers s t ∧
    (o.isReg = true → ResultFlagsSay t.flags (t.operand o) ∧ SameFlagsOutside resultMask s.flags t.flags) ∧
    (o.isReg = false → t.flags = s.flags)

/-- A two-operand instruction completes for every location and writes `op` of the old destination and the source. -/
def TwoOperandResult (mk : Operand → Operand → Instr) (op : Nat → Nat → Nat) : Prop :=
  ∀ (s : State) (src dst : Operand), dst.isLocation = true →
    ∃ t, exec (mk src dst) s = .next t ∧ WritesResult dst (op (s.operand dst).toNat (s.operand src).toNat) s t

/-- A one-operand instruction completes for every location and writes `op` of its old value. -/
def OneOperandResult (mk : Operand → Instr) (op : Nat → Nat) : Prop :=
  ∀ (s : State) (target : Operand), target.isLocation = true →
    ∃ t, exec (mk target) s = .next t ∧ WritesResult target (op (s.operand target).toNat) s t

/-- The values of a list pushed in order. -/
def State.pushAll (s : State) : List Word → State
  | [] => s
  | v :: vs => (s.push v).pushAll vs

/-- `n` pops: the values in the order they come, and the state after. -/
def State.popMany (s : State) : Nat → List Word × State
  | 0 => ([], s)
  | n + 1 => (s.popValue :: (s.popped.popMany n).1, (s.popped.popMany n).2)

/-- The opcode, source-field and destination-field numbers of an instruction word (R51). -/
def wordFields (iw : Word) : Nat × Nat × Nat := (iw.toNat / 4096, iw.toNat / 256 % 16, iw.toNat / 16 % 16)

/-- The instruction the next step executes has a property. -/
def fetchedIs (p : Instr → Bool) (s : State) : Bool :=
  match s.fetchInstr with
  | .ok i => p i
  | .error _ => false

/-- An operand of the assembler that is none of `ip`, `sp`, `bp`. -/
def AsmOperand.isOrdinary : AsmOperand → Bool
  | .reg _ => true
  | .special _ => false
  | .imm _ => true
  | .mem _ => true

/-- The core's operand that an assembler operand stands for (R65, R67): a register is itself, `#` and a bare value are IMM
and brackets are MEM, each with the value resolved. None for `ip`, `sp`, `bp` and for an undefined label. -/
def AsmOperand.meaning (syms : Symbols) : AsmOperand → Option Operand
  | .reg r => some (.reg r)
  | .special _ => none
  | .imm v => (resolve syms v).toOption.map Operand.imm
  | .mem v => (resolve syms v).toOption.map Operand.mem

/-- The operands of an instruction as written, source before destination (R57, R63). -/
def instrOperands : Instr → List Operand
  | .mv src dst => [src, dst]
  | .io _ => []
  | .push src => [src]
  | .pop dst => [dst]
  | .add src dst => [src, dst]
  | .sub src dst => [src, dst]
  | .inc target => [target]
  | .dec target => [target]
  | .and src dst => [src, dst]
  | .or src dst => [src, dst]
  | .not target => [target]
  | .cmp src dst => [src, dst]
  | .call target => [target]
  | .jnz target => [target]
  | .ret => []
  | .hlt => []

end Sys2Proof.Machine

open Sys2Proof Sys2Proof.Machine

/-! ### Encoding -/

/-- Decoding the words of a well-formed instruction gives it back, with the words after it. Rests on the field layout,
which is the spec's decision D1 (log 6). -/
def Obligations.DecodeEncodeRoundTrip : Prop :=
  ∀ (i : Instr) (rest : List Word), i.wellFormed = true → decodeWords (encode i ++ rest) = some (i, rest)

/-- An instruction that was decoded encodes to the words it was decoded from, unused bits cleared: no used bit of a word
is lost or invented. Rests on D1 and D2 (log 6, 7). -/
def Obligations.EncodeDecodeCanonical : Prop :=
  ∀ (iw w1 w2 : Word) (i : Instr), decode iw w1 w2 = .ok i →
    encode i = canonicalWord iw :: [w1, w2].take (instrLength i - 1)

/-- A word with non-zero unused bits decodes as the word with those bits cleared. D2 (log 7). -/
def Obligations.UnusedBitsIgnored : Prop :=
  ∀ (iw iw' w1 w2 : Word), canonicalWord iw = iw' &&& ~~~unusedBits (mnemonicOf (opcodeOf iw)) →
    decode iw w1 w2 = decode iw' w1 w2

/-- The decoder refuses exactly the words of the spec's list of encodings that fault with `InvalidOperand`, parts (b) to
(d). Rests on D1, D3, D4, D5 (log 6, 8, 9, 10). -/
def Obligations.RefusedWordsAreTheListedOnes : Prop :=
  ∀ (iw w1 w2 : Word),
    (∃ e, decode iw w1 w2 = .error e) ↔
      let (op, sf, df) := wordFields iw
      (op ∈ [0x0, 0x4, 0x5, 0x8, 0x9, 0xB] ∧ ((4 ≤ sf ∧ sf ≤ 13) ∨ (4 ≤ df ∧ df ≤ 14))) ∨
        (op ∈ [0x2, 0xC, 0xD] ∧ 4 ≤ sf ∧ sf ≤ 13) ∨
        (op ∈ [0x3, 0x6, 0x7, 0xA] ∧ 4 ≤ sf ∧ sf ≤ 14)

/-- The length of a decoded instruction is decided by its instruction word as the spec's `Len` says, and is 1 to 3
words. Rests on D1, D3 (log 6, 8). -/
def Obligations.DecodedLengthFromWord : Prop :=
  ∀ (iw w1 w2 : Word) (i : Instr), decode iw w1 w2 = .ok i →
    let (op, sf, df) := wordFields iw
    instrLength i =
      (if op ∈ [0x0, 0x4, 0x5, 0x8, 0x9, 0xB] then
        1 + (if sf = 14 ∨ sf = 15 then 1 else 0) + (if df = 15 then 1 else 0)
      else if op ∈ [0x2, 0x3, 0x6, 0x7, 0xA, 0xC, 0xD] then 1 + (if sf = 14 ∨ sf = 15 then 1 else 0)
      else 1) ∧ 1 ≤ instrLength i ∧ instrLength i ≤ 3

/-- The operand word of the source comes first and that of the destination after it; the first word after the
instruction word belongs to whichever operand takes one. -/
def Obligations.OperandWordsSourceFirst : Prop :=
  ∀ (iw w1 w2 : Word) (src dst : Operand) (i : Instr),
    i ∈ [Instr.mv src dst, .add src dst, .sub src dst, .and src dst, .or src dst, .cmp src dst] →
    decode iw w1 w2 = .ok i →
    (src.isReg = false → operandWords src = [w1]) ∧
      (dst.isReg = false → operandWords dst = [if src.isReg = true then w1 else w2])

/-- A decoded instruction is the one at its opcode's place in the spec's list. -/
def Obligations.OpcodeMapInOrder : Prop :=
  ∀ (iw w1 w2 : Word) (i : Instr), decode iw w1 w2 = .ok i →
    ([.mv, .io, .push, .pop, .add, .sub, .inc, .dec, .and, .or, .not, .cmp, .call, .jnz, .ret, .hlt] : List Mnemonic)[
      iw.toNat / 4096]? = some i.mnemonic

/-- Sample words, written out from the spec's encoding, decode to the instructions they stand for. The layout is D1, the
form of `not` D3, the invalid codes D4, the refused immediate destination D5 (log 6, 8, 9, 10). -/
def Obligations.SampleWordsDecode : Prop :=
  decode 0x0E10 7 8 = .ok (.mv (.imm 7) (.reg .b)) ∧ decode 0x0FF0 7 8 = .ok (.mv (.mem 7) (.mem 8)) ∧
    decode 0x43F0 7 8 = .ok (.add (.reg .d) (.mem 7)) ∧ decode 0xA300 7 8 = .ok (.not (.reg .d)) ∧
    decode 0xB2E0 7 8 = .error .immediateLocation ∧ decode 0x8760 7 8 = .error .sourceField ∧
    decode 0xCE00 7 8 = .ok (.call (.imm 7)) ∧ decode 0x1234 7 8 = .ok (.io 0x234)

/-! ### The step -/

/-- A running core runs the instruction its words at `ip` decode to, with `ip` past the instruction's words, and then
makes the halt check. -/
def Obligations.StepRunsDecodedInstruction : Prop :=
  ∀ (s : State) (i : Instr), s.run = .running →
    decode (s.cell s.ip) (s.cell (s.ip + 1)) (s.cell (s.ip + 2)) = .ok i →
    step s = haltCheckResult (exec i { s with ip := s.ip + BitVec.ofNat 16 (instrLength i) })

/-- A running core whose memory holds the words of a well-formed instruction from `ip` on, addresses wrapping, runs
that instruction. Rests on D1 (log 6). -/
def Obligations.StepRunsStoredInstruction : Prop :=
  ∀ (s : State) (i : Instr), s.run = .running → i.wellFormed = true →
    (∀ k w, (encode i)[k]? = some w → s.cell (s.ip + BitVec.ofNat 16 k) = w) →
    step s = haltCheckResult (exec i { s with ip := s.ip + BitVec.ofNat 16 (instrLength i) })

/-- A running core whose word at `ip` the decoder refuses takes the `InvalidOperand` fault: the run state records it
and every register, flag and cell is as before. Nothing is said of `ip`, as the spec asks. D14 (log 16); the recorded
word is log 4. -/
def Obligations.StepRefusesInvalidWord : Prop :=
  ∀ (s : State) (e : DecodeError), s.run = .running →
    decode (s.cell s.ip) (s.cell (s.ip + 1)) (s.cell (s.ip + 2)) = .error e →
    ∃ t, step s = .next t ∧ t.run = .faulted .invalidOperand (s.cell s.ip) ∧ t.regs = s.regs ∧ t.sp = s.sp ∧
      t.bp = s.bp ∧ t.flags = s.flags ∧ SameCells s t

/-- In `Halted` and `Faulted` there is no step. -/
def Obligations.TerminalStatesHaveNoStep : Prop :=
  ∀ s : State, (s.run = .halted → step s = .fault .halted) ∧
    (∀ cause iw, s.run = .faulted cause iw → step s = .fault (.faulted cause iw))

/-- There is a next state exactly if the core is running. Where the word at `ip` is `io` or refused, that next state is
the `Faulted` one: that a fault is taken as a next state is log 3. -/
def Obligations.RunningCoreAlwaysSteps : Prop :=
  ∀ s : State, (∃ t, step s = .next t) ↔ s.run = .running

/-- From a state whose halt flag is clear, the run becomes `Halted` exactly when the halt flag is set at the end of the
step, and that is exactly when the step executed `hlt`; no step follows. That the flag is clear in a running core is part of the
invariant every step keeps. -/
def Obligations.HaltCheckFollowsHaltFlag : Prop :=
  ∀ s t : State, haltSet s.flags = false → step s = .next t →
    (t.run = .halted ↔ haltSet t.flags = true) ∧ (t.run = .halted ↔ s.fetchInstr = .ok .hlt) ∧
      (t.run = .halted → ∀ u, step t ≠ .next u)

/-- The halt flag is clear after reset; a step sets it if it executes `hlt` and leaves it otherwise, and no core runs
on after a step that ends with it set. -/
def Obligations.HaltFlagSetByHltAlone : Prop :=
  haltSet State.reset.flags = false ∧
    ∀ s t : State, step s = .next t →
      (haltSet t.flags = true ↔ haltSet s.flags = true ∨ s.fetchInstr = .ok .hlt) ∧
        (haltSet t.flags = true → t.run ≠ .running)

/-- A step that transfers no control leaves `ip` at the address of the instruction word plus its length, modulo 65536.
`io` is left out because it faults, and the spec asks that no claim rest on `ip` at a fault (log 16). -/
def Obligations.IpAfterPlainStep : Prop :=
  ∀ (s t : State) (i : Instr), step s = .next t → s.fetchInstr = .ok i → transfersControl i = false →
    i.mnemonic ≠ .io → t.ip.toNat = (s.ip.toNat + instrLength i) % 65536

/-- No instruction reads `bp` and none writes it: another `bp` changes a step by that `bp` alone. -/
def Obligations.BpNeitherReadNorWritten : Prop :=
  ∀ (s t : State) (b : Word), step s = .next t → t.bp = s.bp ∧ step { s with bp := b } = .next { t with bp := b }

/-- A step reads no flag but zero and halt: two states that differ in other flag bits alone step to states that differ
in other flag bits alone. So nothing reads the compare flags, nor positive and negative. -/
def Obligations.OnlyZeroAndHaltFlagsAreRead : Prop :=
  ∀ (s t : State) (f : Word), SameFlagsOutside 0xFEFD s.flags f → step s = .next t →
    ∃ g, step { s with flags := f } = .next { t with flags := g } ∧ SameFlagsOutside 0xFEFD t.flags g

/-- What a step presents on the memory ports accounts for what it does to memory, and at most one access is a write,
the last. The order is D18 (log 17). -/
def Obligations.StepWritesAtMostOneCellLast : Prop :=
  ∀ s t : State, step s = .next t →
    t.mem = (stepAccesses s).foldl applyAccess s.mem ∧ ∀ x ∈ (stepAccesses s).dropLast, ∃ a, x = .read a

/-! ### Invariants -/

/-- Every step keeps the invariant: canonical memory, unused flag bits 0, at most one result flag, at most one compare
flag, halt flag set exactly in `Halted`. -/
def Obligations.StepKeepsInvariant : Prop := ∀ s t : State, s.Inv → step s = .next t → t.Inv

/-- The invariant holds after reset. -/
def Obligations.ResetMeetsInvariant : Prop := State.reset.Inv

/-- After reset no result flag and no compare flag is set; a step that updates a group leaves exactly one flag of it
set, and every other step leaves the group as it was. So at most one flag of a group is ever set, and exactly one from
the first update on. -/
def Obligations.FlagGroupsHoldOneFlagAfterUpdate : Prop :=
  State.reset.flags &&& (resultMask ||| compareMask) = 0 ∧
    ∀ s t : State, step s = .next t →
      (if fetchedIs updatesResultFlags s = true then
        exactlyOne (posSet t.flags) (zeroSet t.flags) (negSet t.flags) = true
      else t.flags &&& resultMask = s.flags &&& resultMask) ∧
      (if fetchedIs updatesCompareFlags s = true then
        exactlyOne (lessSet t.flags) (equalSet t.flags) (greaterSet t.flags) = true
      else t.flags &&& compareMask = s.flags &&& compareMask)

/-- The state after reset. -/
def Obligations.ResetState : Prop :=
  (∀ r, getReg State.reset.regs r = 0) ∧ State.reset.ip = 0x4000 ∧ State.reset.sp = Config.stackBase ∧
    State.reset.bp = Config.stackBase ∧ State.reset.flags = 0 ∧ State.reset.run = .running ∧
    ∀ a, State.reset.cell a = 0

/-! ### The shared operations -/

/-- A write to a cell is read back and no other cell changes; the canonical form of memory is kept. -/
def Obligations.CellHoldsLatestWrite : Prop :=
  ∀ (s : State) (a v : Word),
    (s.store a v).cell a = v ∧ SameCellsButAt a s (s.store a v) ∧
      (Memory.wf s.mem = true → Memory.wf (s.store a v).mem = true)

/-- `WriteOperand` stores a value in the register or cell an operand names, where `ReadOperand` finds it; it touches no
flag and nothing else. -/
def Obligations.OperandWriteThenRead : Prop :=
  ∀ (s : State) (o : Operand) (v : Word), o.isLocation = true →
    (s.setOperand o v).operand o = v ∧ SameRegsBut o s (s.setOperand o v) ∧ SameCellsBut o s (s.setOperand o v) ∧
      SamePointers s (s.setOperand o v) ∧ (s.setOperand o v).flags = s.flags

/-- `Push(v)` writes `v` to `memory[SP]` and then increments `sp`, modulo 65536, and does nothing else. -/
def Obligations.PushWritesThenIncrements : Prop :=
  ∀ (s : State) (v : Word),
    (s.push v).cell s.sp = v ∧ (s.push v).sp.toNat = (s.sp.toNat + 1) % 65536 ∧ SameCellsButAt s.sp s (s.push v) ∧
      (s.push v).regs = s.regs ∧ (s.push v).ip = s.ip ∧ (s.push v).bp = s.bp ∧ (s.push v).flags = s.flags ∧
      (s.push v).run = s.run

/-- `Pop()` decrements `sp`, modulo 65536, returns the cell it then points at, keeps that cell and changes nothing else;
after `Push(v)` it returns `v` and restores `sp`. -/
def Obligations.PopUndoesPush : Prop :=
  ∀ (s : State) (v : Word),
    s.popped.sp.toNat = (s.sp.toNat + 65535) % 65536 ∧ s.popValue = s.cell s.popped.sp ∧
      s.popped = { s with sp := s.popped.sp } ∧ (s.push v).popValue = v ∧ (s.push v).popped.sp = s.sp

/-- Pushing at most 65536 values and popping as many returns them in reverse order and restores `sp`, also across the
wrap of `sp`. -/
def Obligations.StackSymmetry : Prop :=
  ∀ (s : State) (vs : List Word), vs.length ≤ 65536 →
    ((s.pushAll vs).popMany vs.length).1 = vs.reverse ∧ ((s.pushAll vs).popMany vs.length).2.sp = s.sp

/-! ### Instructions -/

/-- `mv` copies the source's value to the destination and changes no flag. The forms are D5 (log 10). -/
def Obligations.MvCopiesSource : Prop :=
  ∀ (s : State) (src dst : Operand), dst.isLocation = true →
    ∃ t, exec (.mv src dst) s = .next t ∧ t.operand dst = s.operand src ∧ SameRegsBut dst s t ∧ SameCellsBut dst s t ∧
      SamePointers s t ∧ t.flags = s.flags

/-- `push` writes the source's value to the cell at `sp` and increments `sp`; no flag, register or other cell changes.
The forms are D5, the unchanged flags D11 (log 10, 14). -/
def Obligations.PushStoresSource : Prop :=
  ∀ (s : State) (src : Operand),
    ∃ t, exec (.push src) s = .next t ∧ t.cell s.sp = s.operand src ∧ t.sp.toNat = (s.sp.toNat + 1) % 65536 ∧
      SameCellsButAt s.sp s t ∧ t.regs = s.regs ∧ t.ip = s.ip ∧ t.bp = s.bp ∧ t.flags = s.flags ∧ t.run = s.run

/-- `pop` decrements `sp` and writes the cell there to the destination; no flag changes, and no register or cell but the
destination. The forms are D5, the unchanged flags D11 (log 10, 14). -/
def Obligations.PopLoadsDestination : Prop :=
  ∀ (s : State) (dst : Operand), dst.isLocation = true →
    ∃ t, exec (.pop dst) s = .next t ∧ t.operand dst = s.cell (s.sp - 1) ∧
      t.sp.toNat = (s.sp.toNat + 65535) % 65536 ∧ SameRegsBut dst s t ∧ SameCellsBut dst s t ∧ t.ip = s.ip ∧
      t.bp = s.bp ∧ t.flags = s.flags ∧ t.run = s.run

/-- `add` writes the sum modulo 65536. The forms are D5, the flags' meaning is D8, their independence
D10 (log 10, 12, 14). -/
def Obligations.AddResult : Prop := TwoOperandResult .add fun d s => (d + s) % 65536

/-- `sub` writes destination minus source modulo 65536. Forms and flags as for `add` (log 10, 12, 14). -/
def Obligations.SubResult : Prop := TwoOperandResult .sub fun d s => (d + (65536 - s)) % 65536

/-- `and` writes the bitwise and. Forms and flags as for `add` (log 10, 12, 14). -/
def Obligations.AndResult : Prop := TwoOperandResult .and fun d s => d &&& s

/-- `or` writes the bitwise or. Forms and flags as for `add` (log 10, 12, 14). -/
def Obligations.OrResult : Prop := TwoOperandResult .or fun d s => d ||| s

/-- `not` writes 0xFFFF minus the old value. Forms and flags as for `add` (log 10, 12, 14). -/
def Obligations.NotResult : Prop := OneOperandResult .not fun v => 65535 - v

/-- `inc` adds one modulo 65536. Forms and flags as for `add` (log 10, 12, 14). -/
def Obligations.IncResult : Prop := OneOperandResult .inc fun v => (v + 1) % 65536

/-- `dec` subtracts one modulo 65536. Forms and flags as for `add` (log 10, 12, 14). -/
def Obligations.DecResult : Prop := OneOperandResult .dec fun v => (v + 65535) % 65536

/-- Exclusivity: after each of the seven arithmetic and logic instructions with a register destination exactly one result
flag is set, and with a memory destination all flags are as before. Which flag it is, and that the other bits are kept, is
said by `AddResult` to `DecResult`. The forms are D5 (log 10). -/
def Obligations.ResultFlagsForRegistersOnly : Prop :=
  ∀ (s : State) (src dst : Operand) (i : Instr), dst.isLocation = true →
    i ∈ [Instr.add src dst, .sub src dst, .and src dst, .or src dst, .not dst, .inc dst, .dec dst] →
    ∃ t, exec i s = .next t ∧
      (dst.isReg = true → exactlyOne (posSet t.flags) (zeroSet t.flags) (negSet t.flags) = true) ∧
      (dst.isReg = false → t.flags = s.flags)

/-- `not` twice restores the operand's value, every register and every cell. -/
def Obligations.NotTwiceRestores : Prop :=
  ∀ (s t u : State) (target : Operand), target.isLocation = true →
    exec (.not target) s = .next t → exec (.not target) t = .next u → u.regs = s.regs ∧ SameCells s u

/-- `cmp` sets exactly the compare flag of the unsigned order of source and destination, keeps every other flag bit and
writes nothing else. The forms are D5, the order is D9, the independence D10 (log 10, 13, 14). -/
def Obligations.CmpSetsCompareFlags : Prop :=
  ∀ (s : State) (src dst : Operand), dst.isLocation = true →
    ∃ t, exec (.cmp src dst) s = .next t ∧ OnlyFlagsDiffer s t ∧
      CompareFlagsSay t.flags (s.operand src) (s.operand dst) ∧ SameFlagsOutside compareMask s.flags t.flags

/-- `call` reads its target, pushes `ip` (already past the call) and continues at the target. The register and memory
forms are D7, the unchanged flags D11, the order D18 (log 10, 14, 17). -/
def Obligations.CallPushesReturnAddress : Prop :=
  ∀ (s : State) (target : Operand),
    ∃ t, exec (.call target) s = .next t ∧ t.ip = s.operand target ∧ t.cell s.sp = s.ip ∧
      t.sp.toNat = (s.sp.toNat + 1) % 65536 ∧ SameCellsButAt s.sp s t ∧ t.regs = s.regs ∧ t.bp = s.bp ∧
      t.flags = s.flags ∧ t.run = s.run

/-- `ret` pops the stack into `ip` and changes nothing else. The unchanged flags are D11 (log 14). -/
def Obligations.RetPopsIp : Prop :=
  ∀ s : State,
    ∃ t, exec .ret s = .next t ∧ t.ip = s.cell (s.sp - 1) ∧ t.sp.toNat = (s.sp.toNat + 65535) % 65536 ∧
      t.regs = s.regs ∧ SameCells s t ∧ t.bp = s.bp ∧ t.flags = s.flags ∧ t.run = s.run

/-- `jnz` continues at its target if the zero flag is clear and after itself if it is set, and changes nothing else.
The register and memory forms are D7, the unchanged flags D11 (log 10, 14). -/
def Obligations.JnzTestsZeroFlag : Prop :=
  ∀ (s : State) (target : Operand),
    (s.flags.getLsbD 1 = false → exec (.jnz target) s = .next { s with ip := s.operand target }) ∧
      (s.flags.getLsbD 1 = true → exec (.jnz target) s = .next s)

/-- `hlt` sets flags bit 8, keeps the other bits and changes nothing else; a step whose instruction word has opcode 15,
whatever its low 12 bits, ends in `Halted`, `ip` past the word and nothing else changed, and no step follows. Its
canonical word is 0xF000. That the low 12 bits do not matter is D2, the word is D24 (log 7). -/
def Obligations.HltSetsHaltFlag : Prop :=
  encode .hlt = [0xF000] ∧ (∀ s : State, ∃ t, exec .hlt s = .next t ∧ OnlyFlagsDiffer s t ∧ t.flags.getLsbD 8 = true ∧
      SameFlagsOutside flagHalt s.flags t.flags) ∧
    ∀ s : State, s.run = .running → (s.cell s.ip).toNat / 4096 = 15 →
      ∃ t, step s = .next t ∧ t.run = .halted ∧ t.flags.getLsbD 8 = true ∧
        SameFlagsOutside flagHalt s.flags t.flags ∧ t.ip.toNat = (s.ip.toNat + 1) % 65536 ∧ t.regs = s.regs ∧
        t.sp = s.sp ∧ t.bp = s.bp ∧ t.mem = s.mem ∧ ∀ u, step t ≠ .next u

/-- `io` takes the `InvalidOpcode` fault, whatever its low 12 bits, and has no other effect. D13 (log 15); the recorded
word is log 4. -/
def Obligations.IoRaisesInvalidOpcode : Prop :=
  (∀ (s : State) (payload : BitVec 12),
      ∃ t, exec (.io payload) s = .next t ∧ t.run = .faulted .invalidOpcode (instrWord (.io payload)) ∧
        t.regs = s.regs ∧ t.sp = s.sp ∧ t.bp = s.bp ∧ t.flags = s.flags ∧ SameCells s t) ∧
    ∀ s : State, s.run = .running → (s.cell s.ip).toNat / 4096 = 1 →
      ∃ t, step s = .next t ∧ t.run = .faulted .invalidOpcode (s.cell s.ip) ∧ t.regs = s.regs ∧ t.sp = s.sp ∧
        t.bp = s.bp ∧ t.flags = s.flags ∧ SameCells s t

/-- An instruction with an immediate in a location position takes the `InvalidOperand` fault and has no other effect.
D5 (log 10); the decoder yields no such term (log 11). -/
def Obligations.IllFormedInstructionRaises : Prop :=
  ∀ (s : State) (i : Instr), i.wellFormed = false →
    ∃ t, exec i s = .next t ∧ t.run = .faulted .invalidOperand (instrWord i) ∧ t.regs = s.regs ∧ t.sp = s.sp ∧
      t.bp = s.bp ∧ t.flags = s.flags ∧ SameCells s t

/-- A `call` and then a `ret`, the subroutine doing nothing, continue after the call with `sp`, the registers and the
flags as before it. The register and memory targets are D7, the unchanged flags D11, the order D18 (log 10, 14, 17). -/
def Obligations.RetReturnsFromCall : Prop :=
  ∀ (s t u : State) (target : Operand), exec (.call target) s = .next t → exec .ret t = .next u →
    u.ip = s.ip ∧ u.sp = s.sp ∧ u.regs = s.regs ∧ u.flags = s.flags ∧ u.bp = s.bp ∧ SameCellsButAt s.sp s u

/-- `push #k` and then `ret` is a jump to `k` that reads no flag and leaves `sp` as it was. The form
`push #k` is D5, the unchanged flags D11 (log 10, 14). -/
def Obligations.PushThenRetJumps : Prop :=
  ∀ (s t u : State) (k : Word), exec (.push (.imm k)) s = .next t → exec .ret t = .next u →
    u.ip = k ∧ u.sp = s.sp ∧ u.regs = s.regs ∧ u.flags = s.flags

/-- The all-zero word is `mv a, a` by D1 (log 6): a running core steps over it and changes nothing but `ip`. The halt
flag of a running core is clear by the invariant every step keeps. -/
def Obligations.AllZeroWordOnlyAdvances : Prop :=
  ∀ s : State, s.run = .running → haltSet s.flags = false → s.cell s.ip = 0 → step s = .next { s with ip := s.ip + 1 }

/-- Whatever instruction a step executes, the cell it writes on its write port holds the written value in the next state,
where the next step fetches, and every other cell is as before; a step without a write leaves every cell. -/
def Obligations.EveryWriteIsSeenByNextFetch : Prop :=
  ∀ (s t : State) (i : Instr), step s = .next t → s.fetchInstr = .ok i →
    (∀ a v, .write a v ∈ dataWrites i (s.advance (instrLength i)) →
      t.cell a = v ∧ (t.ip = a → t.fetchWord = v) ∧ SameCellsButAt a s t) ∧
    (dataWrites i (s.advance (instrLength i)) = [] → SameCells s t)

/-- The form `mv #w, [ip + 3]` alone: it stores to the cell of the next instruction, and the next fetch reads `w`. The
word 0x0EF0 rests on D1, the form on D5 (log 6, 10); any store is `EveryWriteIsSeenByNextFetch`. -/
def Obligations.StoreIsSeenByNextFetch : Prop :=
  ∀ (s : State) (w : Word), s.run = .running → haltSet s.flags = false → s.cell s.ip = 0x0EF0 →
    s.cell (s.ip + 1) = w → s.cell (s.ip + 2) = s.ip + 3 →
    ∃ t, step s = .next t ∧ t.run = .running ∧ t.ip = s.ip + 3 ∧ t.fetchWord = w ∧
      t.fetchInstr = decode w (s.cell (s.ip + 4)) (s.cell (s.ip + 5))

/-! ### Loader and assembler -/

/-- Loading an image of `2n` bytes that fits puts word `k`, low byte first, in cell 0x4000 + k, leaves every other cell
0 and every register as at reset. That memory is in canonical form is the model's own (log 2). -/
def Obligations.LoaderPlacesImage : Prop :=
  ∀ (image : List Byte) (n : Nat), image.length = 2 * n → n ≤ 49152 →
    ∃ s, boot image = .ok s ∧
      (∀ k lo hi, k < n → image[2 * k]? = some lo → image[2 * k + 1]? = some hi →
        (s.cell (BitVec.ofNat 16 (0x4000 + k))).toNat = lo.toNat + 256 * hi.toNat) ∧
      (∀ a : Word, a.toNat < 0x4000 ∨ 0x4000 + n ≤ a.toNat → s.cell a = 0) ∧
      s = { State.reset with mem := s.mem } ∧ Memory.wf s.mem = true

/-- The loader refuses exactly the images with an odd number of bytes or more than 98304 of them. D19 (log 21). -/
def Obligations.LoaderRefusesUnplaceableImages : Prop :=
  ∀ (image : List Byte) (s : State), (∃ e, loadImage image s = .error e) ↔ image.length % 2 = 1 ∨ 98304 < image.length

/-- The image of a list of words is their bytes, bits 7:0 before bits 15:8, and nothing more; its words are the words; and
if it fits, the loader puts word `k` in cell 0x4000 + k. -/
def Obligations.ImageIsLittleEndianWords : Prop :=
  ∀ ws : List Word, (imageOfWords ws).length = 2 * ws.length ∧
    (∀ (k : Nat) (w : Word), ws[k]? = some w →
      (imageOfWords ws)[2 * k]?.map BitVec.toNat = some (w.toNat % 256) ∧
        (imageOfWords ws)[2 * k + 1]?.map BitVec.toNat = some (w.toNat / 256)) ∧
    wordsOfImage (imageOfWords ws) = some ws ∧
    (ws.length ≤ 49152 → ∃ s, boot (imageOfWords ws) = .ok s ∧
      ∀ (k : Nat) (w : Word), ws[k]? = some w → s.cell (BitVec.ofNat 16 (0x4000 + k)) = w)

/-- The two passes agree: in an assembly, the address recorded for a label is the origin plus the number of words that
the lines before the label's line emit. Beyond cell 0xFFFF the address is modulo 65536, the model's choice (log 25). -/
def Obligations.AssembledAddressesAgree : Prop :=
  ∀ (p : Config.AsmParams) (texts : List (List Char)) (lines before after : List (Nat × AsmLine)) (syms : Symbols)
    (ws : List Word) (n : Nat) (line : AsmLine) (l : List Char),
    passOne p texts 1 0 [] = .ok (lines, syms) → passTwo syms lines = .ok ws →
    lines = before ++ (n, line) :: after → line.label = some l →
    ∃ wb, passTwo syms before = .ok wb ∧ wb <+: ws ∧ lookupSymbol l syms = some (0x4000 + BitVec.ofNat 16 wb.length)

/-- What the assembler emits for an instruction line without `ip`, `sp`, `bp` is the encoding of the well-formed instruction
of that mnemonic whose operands are the line's, resolved, in the line's order: assembler and core share one encoding.
Rests on D1, D3, D5 and D6 (log 6, 8, 10, 23). -/
def Obligations.EmittedInstructionIsEncoded : Prop :=
  ∀ (syms : Symbols) (m : Mnemonic) (os : List AsmOperand) (ws : List Word),
    checkOperands m os = .ok () → os.all AsmOperand.isOrdinary = true → emitStatement syms (.instr m os) = .ok ws →
    ∃ i : Instr, i.wellFormed = true ∧ i.mnemonic = m ∧
      (instrOperands i).map some = os.map (AsmOperand.meaning syms) ∧ encode i = ws
end

