-- ==== Sys2Proof/Laws/Decode.lean ====
section
/-! SUPPORT. Fields of a packed word, operands read back from their fields, and what a decoded instruction satisfies. -/

namespace Sys2Proof

/-- Every opcode value has one mnemonic, and no mnemonic shares its opcode. -/
@[simp] theorem mnemonicOf_opcodeBits (m : Mnemonic) : mnemonicOf (opcodeBits m) = m := by cases m <;> rfl

@[simp] theorem opcodeBits_mnemonicOf (op : Nibble) : opcodeBits (mnemonicOf op) = op := by
  revert op; decide

@[simp] theorem regOf_regField (r : Reg) : regOf (regField r) = r := by cases r <;> rfl

/-! ### The fields of a packed word -/

theorem extract_nibble3 (a b c d : Nibble) : BitVec.extractLsb' 12 4 (a ++ b ++ c ++ d) = a := by
  ext i hi
  simp only [BitVec.getElem_extractLsb', BitVec.getLsbD_append]
  interval_cases i <;> simp

theorem extract_nibble2 (a b c d : Nibble) : BitVec.extractLsb' 8 4 (a ++ b ++ c ++ d) = b := by
  ext i hi
  simp only [BitVec.getElem_extractLsb', BitVec.getLsbD_append]
  interval_cases i <;> simp

theorem extract_nibble1 (a b c d : Nibble) : BitVec.extractLsb' 4 4 (a ++ b ++ c ++ d) = c := by
  ext i hi
  simp only [BitVec.getElem_extractLsb', BitVec.getLsbD_append]
  interval_cases i <;> simp

theorem extract_opcode_of_payload (q : Nibble) (p : BitVec 12) : BitVec.extractLsb' 12 4 (q ++ p) = q := by
  ext i hi
  simp only [BitVec.getElem_extractLsb', BitVec.getLsbD_append]
  interval_cases i <;> simp

theorem extract_payload (q : Nibble) (p : BitVec 12) : BitVec.extractLsb' 0 12 (q ++ p) = p := by
  ext i hi
  simp only [BitVec.getElem_extractLsb', BitVec.getLsbD_append]
  interval_cases i <;> simp

@[simp] theorem opcodeOf_packWord (m : Mnemonic) (f g : Nibble) : opcodeOf (packWord m f g) = opcodeBits m :=
  extract_nibble3 ..

@[simp] theorem srcField_packWord (m : Mnemonic) (f g : Nibble) : srcField (packWord m f g) = f := extract_nibble2 ..

@[simp] theorem dstField_packWord (m : Mnemonic) (f g : Nibble) : dstField (packWord m f g) = g := extract_nibble1 ..

/-- A word is its opcode and its low 12 bits. -/
theorem opcode_payload (iw : Word) : opcodeOf iw ++ ioPayload iw = iw := by
  have h : ∀ w : BitVec (4 + 12), w.extractLsb' 12 4 ++ w.extractLsb' 0 12 = w := by
    intro w
    apply BitVec.eq_of_getLsbD_eq
    intro i hi
    simp only [BitVec.getLsbD_append, BitVec.getLsbD_extractLsb']
    interval_cases i <;> simp
  exact h iw

/-! ### An operand and its field -/

@[simp] theorem operandOf_regField (r : Reg) (w : Word) : operandOf (regField r) w = some (.reg r) := by cases r <;> rfl
@[simp] theorem takesWord_regField (r : Reg) : takesWord (regField r) = false := by cases r <;> rfl

/-- A field and the word it takes give back the operand they were made from. -/
theorem operandOf_operandField (o : Operand) (rest : List Word) (d : Word) :
    operandOf (operandField o) ((operandWords o ++ rest).headD d) = some o := by
  cases o with
  | reg r => exact operandOf_regField r _
  | imm k => rfl
  | mem a => rfl

theorem takesWord_operandField (o : Operand) : takesWord (operandField o) = decide (operandLength o = 1) := by
  cases o with
  | reg r => simp [operandField, operandLength]
  | imm k => rfl
  | mem a => rfl

@[simp] theorem operandWords_length (o : Operand) : (operandWords o).length = operandLength o := by cases o <;> rfl

theorem regField_regOf {f : Nibble} (h : classOf f = .reg) : regField (regOf f) = f := by revert f; decide
theorem field_of_imm {f : Nibble} (h : classOf f = .imm) : f = 0xE := by revert f; decide
theorem field_of_mem {f : Nibble} (h : classOf f = .mem) : f = 0xF := by revert f; decide

/-- An operand read from a field has that field and takes the word the field takes. -/
theorem operandOf_some {f : Nibble} {w : Word} {o : Operand} (h : operandOf f w = some o) :
    operandField o = f ∧ operandWords o = if takesWord f then [w] else [] := by
  unfold operandOf at h
  unfold takesWord
  split at h <;> rename_i hc <;> cases h
  · exact ⟨regField_regOf hc, rfl⟩
  · exact ⟨(field_of_imm hc).symm, rfl⟩
  · exact ⟨(field_of_mem hc).symm, rfl⟩

/-- A field gives an operand exactly when its class is not INVALID. -/
theorem operandOf_none {f : Nibble} {w : Word} : operandOf f w = none ↔ classOf f = .invalid := by
  unfold operandOf
  cases classOf f <;> simp

/-! ### What a decoded instruction satisfies -/

theorem checkClasses_ok {i j : Instr} (h : checkClasses i = .ok j) : j = i ∧ i.wellFormed = true := by
  unfold checkClasses at h
  split at h
  · cases h; exact ⟨rfl, ‹_›⟩
  · cases h

theorem decodeOne_ok {mk : Operand → Instr} {iw w1 : Word} {i : Instr} (h : decodeOne mk iw w1 = .ok i) :
    ∃ o, i = mk o ∧ (mk o).wellFormed = true ∧ operandOf (srcField iw) w1 = some o := by
  unfold decodeOne at h
  split at h
  · cases h
  · rename_i o ho
    obtain ⟨rfl, hwf⟩ := checkClasses_ok h
    exact ⟨o, rfl, hwf, ho⟩

theorem decodeTwo_ok {mk : Operand → Operand → Instr} {iw w1 w2 : Word} {i : Instr}
    (h : decodeTwo mk iw w1 w2 = .ok i) :
    ∃ src dst, i = mk src dst ∧ (mk src dst).wellFormed = true ∧ operandOf (srcField iw) w1 = some src ∧
      operandOf (dstField iw) (if takesWord (srcField iw) then w2 else w1) = some dst := by
  unfold decodeTwo at h
  split at h
  · cases h
  · rename_i src hsrc
    split at h
    · cases h
    · rename_i dst hdst
      obtain ⟨rfl, hwf⟩ := checkClasses_ok h
      exact ⟨src, dst, rfl, hwf, hsrc, hdst⟩

/-- The decoder yields only instructions that pass the class check of R58. -/
theorem decode_wellFormed {iw w1 w2 : Word} {i : Instr} (h : decode iw w1 w2 = .ok i) : i.wellFormed = true := by
  unfold decode at h
  split at h <;>
    first
    | (obtain ⟨_, _, rfl, hwf, -⟩ := decodeTwo_ok h; exact hwf)
    | (obtain ⟨_, rfl, hwf, -⟩ := decodeOne_ok h; exact hwf)
    | (cases h; rfl)

/-- The decoder yields the instruction of the word's opcode. -/
theorem decode_mnemonic {iw w1 w2 : Word} {i : Instr} (h : decode iw w1 w2 = .ok i) :
    i.mnemonic = mnemonicOf (opcodeOf iw) := by
  unfold decode at h
  split at h <;> rename_i hm <;> rw [hm] <;>
    first
    | (obtain ⟨_, _, rfl, -⟩ := decodeTwo_ok h; rfl)
    | (obtain ⟨_, rfl, -⟩ := decodeOne_ok h; rfl)
    | (cases h; rfl)

end Sys2Proof
end

