-- ==== Sys2Proof/Laws/Flags.lean ====
section
/-! SUPPORT. What the two flag updates and the halt flag do to each bit of the flags register. -/

namespace Sys2Proof.Machine

/-! ### The bits of the new group -/

theorem resultFlag_cases (r : Word) :
    (resultFlag r = flagZero ∧ r.toNat = 0) ∨ (resultFlag r = flagNeg ∧ 32768 ≤ r.toNat) ∨
      (resultFlag r = flagPos ∧ 0 < r.toNat ∧ r.toNat < 32768) := by
  have h15 : r.getLsbD 15 = decide (32768 ≤ r.toNat) := by
    have := BitVec.msb_eq_decide r
    simpa [BitVec.msb, BitVec.getMsbD] using this
  unfold resultFlag
  by_cases h0 : r = 0
  · subst h0; simp
  · have hne : r.toNat ≠ 0 := fun e => h0 (BitVec.eq_of_toNat_eq e)
    rw [if_neg h0, h15]
    by_cases hn : 32768 ≤ r.toNat
    · right; left; simp [hn]
    · right; right
      simp [hn]
      omega

theorem compareFlag_cases (sv dv : Word) :
    (compareFlag sv dv = flagLess ∧ sv.toNat < dv.toNat) ∨ (compareFlag sv dv = flagEqual ∧ sv.toNat = dv.toNat) ∨
      (compareFlag sv dv = flagGreater ∧ dv.toNat < sv.toNat) := by
  unfold compareFlag
  by_cases h : sv < dv
  · left; exact ⟨if_pos h, h⟩
  · rw [if_neg h]
    have hle : dv.toNat ≤ sv.toNat := Nat.le_of_not_lt h
    by_cases he : sv = dv
    · right; left; exact ⟨if_pos he, by rw [he]⟩
    · right; right
      refine ⟨if_neg he, ?_⟩
      have : sv.toNat ≠ dv.toNat := fun e => he (BitVec.eq_of_toNat_eq e)
      omega

/-! ### Bits inside and outside a group -/

/-- An update of the bits of `mask` takes the bits of `mask` from the new group. -/
theorem update_getLsbD_inside (f g mask : Word) {i : Nat} (hm : mask.getLsbD i = true) :
    ((f &&& ~~~mask) ||| g).getLsbD i = g.getLsbD i := by
  simp [hm]

/-- An update of the bits of `mask` by a group inside `mask` leaves the register outside `mask`. -/
theorem update_outside (f g mask : Word) (hg : g &&& ~~~mask = 0) :
    ((f &&& ~~~mask) ||| g) &&& ~~~mask = f &&& ~~~mask := by
  have hd : ((f &&& ~~~mask) ||| g) &&& ~~~mask = ((f &&& ~~~mask) &&& ~~~mask) ||| (g &&& ~~~mask) := by
    ext i hi; simp; cases f[i] <;> cases mask[i] <;> cases g[i] <;> rfl
  rw [hd, hg, BitVec.and_assoc, BitVec.and_self]
  exact BitVec.or_zero

theorem resultFlag_inside (r : Word) : resultFlag r &&& ~~~resultMask = 0 := by
  rcases resultFlag_cases r with ⟨h, -⟩ | ⟨h, -⟩ | ⟨h, -⟩ <;> rw [h] <;> decide

theorem compareFlag_inside (sv dv : Word) : compareFlag sv dv &&& ~~~compareMask = 0 := by
  rcases compareFlag_cases sv dv with ⟨h, -⟩ | ⟨h, -⟩ | ⟨h, -⟩ <;> rw [h] <;> decide

/-! ### The updates -/

theorem withResultFlags_outside (f r : Word) : SameFlagsOutside resultMask f (withResultFlags f r) :=
  update_outside f _ _ (resultFlag_inside r)

theorem withCompareFlags_outside (f sv dv : Word) : SameFlagsOutside compareMask f (withCompareFlags f sv dv) :=
  update_outside f _ _ (compareFlag_inside sv dv)

/-- Two registers that agree outside a mask agree on each bit outside it. -/
theorem SameFlagsOutside.getLsbD {mask f g : Word} (h : SameFlagsOutside mask f g) {i : Nat} (hi : i < 16)
    (hm : mask.getLsbD i = false) : g.getLsbD i = f.getLsbD i := by
  have := congrArg (·.getLsbD i) h
  simpa only [BitVec.getLsbD_and, BitVec.getLsbD_not, hi, hm, decide_true, Bool.not_false, Bool.and_true] using this

theorem withResultFlags_say (f r : Word) : ResultFlagsSay (withResultFlags f r) r := by
  unfold ResultFlagsSay withResultFlags zeroSet negSet posSet
  rw [update_getLsbD_inside _ _ _ (by decide), update_getLsbD_inside _ _ _ (by decide),
    update_getLsbD_inside _ _ _ (by decide)]
  rcases resultFlag_cases r with ⟨h, h1⟩ | ⟨h, h1⟩ | ⟨h, h1, h2⟩ <;> rw [h] <;>
    simp [flagZero, flagNeg, flagPos] <;> omega

theorem withCompareFlags_say (f sv dv : Word) : CompareFlagsSay (withCompareFlags f sv dv) sv dv := by
  unfold CompareFlagsSay withCompareFlags lessSet equalSet greaterSet
  rw [update_getLsbD_inside _ _ _ (by decide), update_getLsbD_inside _ _ _ (by decide),
    update_getLsbD_inside _ _ _ (by decide)]
  rcases compareFlag_cases sv dv with ⟨h, h1⟩ | ⟨h, h1⟩ | ⟨h, h1⟩ <;> rw [h] <;>
    simp [flagLess, flagEqual, flagGreater] <;> omega

theorem withHaltFlag_haltSet (f : Word) : haltSet (withHaltFlag f) = true := by
  simp [haltSet, withHaltFlag, flagHalt]

theorem withHaltFlag_outside (f : Word) : SameFlagsOutside flagHalt f (withHaltFlag f) := by
  unfold SameFlagsOutside withHaltFlag
  ext i hi
  simp
  cases f[i] <;> cases flagHalt[i] <;> rfl

@[simp] theorem haltSet_withResultFlags (f r : Word) : haltSet (withResultFlags f r) = haltSet f :=
  (withResultFlags_outside f r).getLsbD (by decide) (by decide)

@[simp] theorem haltSet_withCompareFlags (f sv dv : Word) : haltSet (withCompareFlags f sv dv) = haltSet f :=
  (withCompareFlags_outside f sv dv).getLsbD (by decide) (by decide)

@[simp] theorem zeroSet_withCompareFlags (f sv dv : Word) : zeroSet (withCompareFlags f sv dv) = zeroSet f :=
  (withCompareFlags_outside f sv dv).getLsbD (by decide) (by decide)

/-- The same update keeps two registers in agreement outside a mask. -/
theorem SameFlagsOutside.update {mask f g : Word} (h : SameFlagsOutside mask f g) (m x : Word) :
    SameFlagsOutside mask ((f &&& ~~~m) ||| x) ((g &&& ~~~m) ||| x) := by
  have hd : ∀ y : Word, ((y &&& ~~~m) ||| x) &&& ~~~mask = ((y &&& ~~~mask) &&& ~~~m) ||| (x &&& ~~~mask) := by
    intro y
    ext i hi
    simp
    cases y[i] <;> cases mask[i] <;> cases m[i] <;> cases x[i] <;> rfl
  unfold SameFlagsOutside at h ⊢
  rw [hd, hd, h]

/-- Setting the same bits keeps two registers in agreement outside a mask. -/
theorem SameFlagsOutside.set {mask f g : Word} (h : SameFlagsOutside mask f g) (x : Word) :
    SameFlagsOutside mask (f ||| x) (g ||| x) := by
  have hd : ∀ y : Word, (y ||| x) &&& ~~~mask = (y &&& ~~~mask) ||| (x &&& ~~~mask) := by
    intro y
    ext i hi
    simp
    cases y[i] <;> cases mask[i] <;> cases x[i] <;> rfl
  unfold SameFlagsOutside at h ⊢
  rw [hd, hd, h]

/-- Registers that agree outside a mask agree outside a larger one, and on any bits outside it. -/
theorem SameFlagsOutside.and {mask f g keep : Word} (h : SameFlagsOutside mask f g) (hk : keep &&& ~~~mask = keep) :
    g &&& keep = f &&& keep := by
  unfold SameFlagsOutside at h
  rw [← hk, BitVec.and_comm keep, ← BitVec.and_assoc, ← BitVec.and_assoc, h]

end Sys2Proof.Machine
end

