-- ==== Sys2Proof/Laws/State.lean ====
section
/-! SUPPORT. One lemma per field per update of State, and per register per write, so that no proof unfolds an update. -/

namespace Sys2Proof.Machine

/-! ### Registers -/

@[simp] theorem getReg_setReg_same (g : Regs) (r : Reg) (v : Word) : getReg (setReg g r v) r = v := by cases r <;> rfl

theorem getReg_setReg_other (g : Regs) {r q : Reg} (v : Word) (h : r ≠ q) : getReg (setReg g r v) q = getReg g q := by
  cases r <;> cases q <;> first | rfl | exact absurd rfl h

theorem getReg_setReg (g : Regs) (r q : Reg) (v : Word) :
    getReg (setReg g r v) q = if r = q then v else getReg g q := by
  by_cases h : r = q
  · subst h; simp
  · rw [if_neg h, getReg_setReg_other g v h]

@[simp] theorem setReg_getReg (g : Regs) (r : Reg) : setReg g r (getReg g r) = g := by cases r <;> rfl

@[simp] theorem setReg_setReg (g : Regs) (r : Reg) (u v : Word) : setReg (setReg g r u) r v = setReg g r v := by
  cases r <;> rfl

/-! ### `store` -/

@[simp] theorem State.store_regs (s : State) (a v : Word) : (s.store a v).regs = s.regs := rfl
@[simp] theorem State.store_ip (s : State) (a v : Word) : (s.store a v).ip = s.ip := rfl
@[simp] theorem State.store_sp (s : State) (a v : Word) : (s.store a v).sp = s.sp := rfl
@[simp] theorem State.store_bp (s : State) (a v : Word) : (s.store a v).bp = s.bp := rfl
@[simp] theorem State.store_flags (s : State) (a v : Word) : (s.store a v).flags = s.flags := rfl
@[simp] theorem State.store_mem (s : State) (a v : Word) : (s.store a v).mem = memWrite s.mem a.toNat v := rfl
@[simp] theorem State.store_run (s : State) (a v : Word) : (s.store a v).run = s.run := rfl

/-! ### `advance` -/

@[simp] theorem State.advance_regs (s : State) (n : Nat) : (s.advance n).regs = s.regs := rfl
@[simp] theorem State.advance_ip (s : State) (n : Nat) : (s.advance n).ip = s.ip + BitVec.ofNat 16 n := rfl
@[simp] theorem State.advance_sp (s : State) (n : Nat) : (s.advance n).sp = s.sp := rfl
@[simp] theorem State.advance_bp (s : State) (n : Nat) : (s.advance n).bp = s.bp := rfl
@[simp] theorem State.advance_flags (s : State) (n : Nat) : (s.advance n).flags = s.flags := rfl
@[simp] theorem State.advance_mem (s : State) (n : Nat) : (s.advance n).mem = s.mem := rfl
@[simp] theorem State.advance_run (s : State) (n : Nat) : (s.advance n).run = s.run := rfl
@[simp] theorem State.advance_cell (s : State) (n : Nat) (a : Word) : (s.advance n).cell a = s.cell a := rfl

/-! ### `push` and `popped` -/

@[simp] theorem State.push_regs (s : State) (v : Word) : (s.push v).regs = s.regs := rfl
@[simp] theorem State.push_ip (s : State) (v : Word) : (s.push v).ip = s.ip := rfl
@[simp] theorem State.push_sp (s : State) (v : Word) : (s.push v).sp = s.sp + 1 := rfl
@[simp] theorem State.push_bp (s : State) (v : Word) : (s.push v).bp = s.bp := rfl
@[simp] theorem State.push_flags (s : State) (v : Word) : (s.push v).flags = s.flags := rfl
@[simp] theorem State.push_mem (s : State) (v : Word) : (s.push v).mem = memWrite s.mem s.sp.toNat v := rfl
@[simp] theorem State.push_run (s : State) (v : Word) : (s.push v).run = s.run := rfl
theorem State.push_cell (s : State) (v a : Word) : (s.push v).cell a = (s.store s.sp v).cell a := rfl

@[simp] theorem State.popped_regs (s : State) : s.popped.regs = s.regs := rfl
@[simp] theorem State.popped_ip (s : State) : s.popped.ip = s.ip := rfl
@[simp] theorem State.popped_sp (s : State) : s.popped.sp = s.sp - 1 := rfl
@[simp] theorem State.popped_bp (s : State) : s.popped.bp = s.bp := rfl
@[simp] theorem State.popped_flags (s : State) : s.popped.flags = s.flags := rfl
@[simp] theorem State.popped_mem (s : State) : s.popped.mem = s.mem := rfl
@[simp] theorem State.popped_run (s : State) : s.popped.run = s.run := rfl
@[simp] theorem State.popped_cell (s : State) (a : Word) : s.popped.cell a = s.cell a := rfl

theorem State.popValue_eq (s : State) : s.popValue = s.cell (s.sp - 1) := rfl

/-! ### `raise` -/

@[simp] theorem State.raise_regs (s : State) (c : Cause) (w : Word) : (s.raise c w).regs = s.regs := rfl
@[simp] theorem State.raise_ip (s : State) (c : Cause) (w : Word) : (s.raise c w).ip = s.ip := rfl
@[simp] theorem State.raise_sp (s : State) (c : Cause) (w : Word) : (s.raise c w).sp = s.sp := rfl
@[simp] theorem State.raise_bp (s : State) (c : Cause) (w : Word) : (s.raise c w).bp = s.bp := rfl
@[simp] theorem State.raise_flags (s : State) (c : Cause) (w : Word) : (s.raise c w).flags = s.flags := rfl
@[simp] theorem State.raise_mem (s : State) (c : Cause) (w : Word) : (s.raise c w).mem = s.mem := rfl
@[simp] theorem State.raise_run (s : State) (c : Cause) (w : Word) : (s.raise c w).run = .faulted c w := rfl
@[simp] theorem State.raise_cell (s : State) (c : Cause) (w a : Word) : (s.raise c w).cell a = s.cell a := rfl

/-! ### `setOperand` and `setResult` -/

@[simp] theorem State.setOperand_ip (s : State) (o : Operand) (v : Word) : (s.setOperand o v).ip = s.ip := by cases o <;> rfl
@[simp] theorem State.setOperand_sp (s : State) (o : Operand) (v : Word) : (s.setOperand o v).sp = s.sp := by cases o <;> rfl
@[simp] theorem State.setOperand_bp (s : State) (o : Operand) (v : Word) : (s.setOperand o v).bp = s.bp := by cases o <;> rfl
@[simp] theorem State.setOperand_flags (s : State) (o : Operand) (v : Word) : (s.setOperand o v).flags = s.flags := by
  cases o <;> rfl
@[simp] theorem State.setOperand_run (s : State) (o : Operand) (v : Word) : (s.setOperand o v).run = s.run := by
  cases o <;> rfl

@[simp] theorem State.setResult_regs (s : State) (o : Operand) (r : Word) :
    (s.setResult o r).regs = (s.setOperand o r).regs := by cases o <;> rfl
@[simp] theorem State.setResult_mem (s : State) (o : Operand) (r : Word) :
    (s.setResult o r).mem = (s.setOperand o r).mem := by cases o <;> rfl
@[simp] theorem State.setResult_ip (s : State) (o : Operand) (r : Word) : (s.setResult o r).ip = s.ip := by cases o <;> rfl
@[simp] theorem State.setResult_sp (s : State) (o : Operand) (r : Word) : (s.setResult o r).sp = s.sp := by cases o <;> rfl
@[simp] theorem State.setResult_bp (s : State) (o : Operand) (r : Word) : (s.setResult o r).bp = s.bp := by cases o <;> rfl
@[simp] theorem State.setResult_run (s : State) (o : Operand) (r : Word) : (s.setResult o r).run = s.run := by
  cases o <;> rfl
@[simp] theorem State.setResult_flags (s : State) (o : Operand) (r : Word) :
    (s.setResult o r).flags = if o.isReg then withResultFlags s.flags r else s.flags := by cases o <;> rfl
@[simp] theorem State.setResult_cell (s : State) (o : Operand) (r a : Word) :
    (s.setResult o r).cell a = (s.setOperand o r).cell a := by cases o <;> rfl
@[simp] theorem State.setResult_operand (s : State) (o q : Operand) (r : Word) :
    (s.setResult o r).operand q = (s.setOperand o r).operand q := by cases o <;> cases q <;> rfl

/-! ### `haltCheck` and `refuseWord` -/

@[simp] theorem State.haltCheck_regs (s : State) : s.haltCheck.regs = s.regs := by unfold State.haltCheck; split <;> rfl
@[simp] theorem State.haltCheck_ip (s : State) : s.haltCheck.ip = s.ip := by unfold State.haltCheck; split <;> rfl
@[simp] theorem State.haltCheck_sp (s : State) : s.haltCheck.sp = s.sp := by unfold State.haltCheck; split <;> rfl
@[simp] theorem State.haltCheck_bp (s : State) : s.haltCheck.bp = s.bp := by unfold State.haltCheck; split <;> rfl
@[simp] theorem State.haltCheck_flags (s : State) : s.haltCheck.flags = s.flags := by unfold State.haltCheck; split <;> rfl
@[simp] theorem State.haltCheck_mem (s : State) : s.haltCheck.mem = s.mem := by unfold State.haltCheck; split <;> rfl
theorem State.haltCheck_run (s : State) :
    s.haltCheck.run = if s.run = .running ∧ haltSet s.flags = true then .halted else s.run := by
  unfold State.haltCheck; split <;> rfl

@[simp] theorem State.refuseWord_regs (s : State) (e : DecodeError) : (s.refuseWord e).regs = s.regs := rfl
@[simp] theorem State.refuseWord_ip (s : State) (e : DecodeError) : (s.refuseWord e).ip = s.ip + 1 := rfl
@[simp] theorem State.refuseWord_sp (s : State) (e : DecodeError) : (s.refuseWord e).sp = s.sp := rfl
@[simp] theorem State.refuseWord_bp (s : State) (e : DecodeError) : (s.refuseWord e).bp = s.bp := rfl
@[simp] theorem State.refuseWord_flags (s : State) (e : DecodeError) : (s.refuseWord e).flags = s.flags := rfl
@[simp] theorem State.refuseWord_mem (s : State) (e : DecodeError) : (s.refuseWord e).mem = s.mem := rfl
@[simp] theorem State.refuseWord_run (s : State) (e : DecodeError) :
    (s.refuseWord e).run = .faulted .invalidOperand s.fetchWord := by cases e <;> rfl

end Sys2Proof.Machine
end

