-- ==== Sys2Proof/Laws/Memory.lean ====
section
/-! SUPPORT. Memory: a read after a write, the canonical form kept, and equal memories from equal cells. -/

namespace Sys2Proof.Machine

/-! ### Reading what was written -/

theorem memRead_memErase (m : Memory) (k j : Nat) :
    memRead (memErase m k) j = if j = k then unlistedCell else memRead m j := by
  induction m with
  | nil => simp [memErase, memRead]
  | cons c rest ih =>
    obtain ⟨i, u⟩ := c
    simp only [memErase, memRead]
    split
    · rename_i hik
      subst hik
      rw [ih]
      split <;> simp_all [eq_comm]
    · simp only [memRead, ih]
      split <;> split <;> simp_all

theorem memRead_memInsert_other (m : Memory) {k j : Nat} (v : Word) (h : j ≠ k) :
    memRead (memInsert m k v) j = memRead m j := by
  induction m with
  | nil => simp [memInsert, memRead, h.symm]
  | cons c rest ih =>
    obtain ⟨i, u⟩ := c
    unfold memInsert
    split
    · simp [memRead, h.symm]
    · simp only [memRead, ih]

theorem memRead_memInsert_same (m : Memory) (k : Nat) (v : Word) (h : memRead m k = unlistedCell)
    (hu : ∀ c ∈ m, c.1 ≠ k) : memRead (memInsert m k v) k = v := by
  induction m with
  | nil => simp [memInsert, memRead]
  | cons c rest ih =>
    obtain ⟨i, u⟩ := c
    have hik : i ≠ k := hu _ (List.mem_cons_self ..)
    unfold memInsert
    split
    · simp [memRead]
    · simp only [memRead, hik, if_false] at h ⊢
      exact ih h fun c hc => hu c (List.mem_cons_of_mem _ hc)

theorem memErase_absent (m : Memory) (k : Nat) : ∀ c ∈ memErase m k, c.1 ≠ k := by
  induction m with
  | nil => simp [memErase]
  | cons c rest ih =>
    obtain ⟨i, u⟩ := c
    unfold memErase
    split
    · exact ih
    · rename_i hik
      intro c hc
      rcases List.mem_cons.mp hc with rfl | hc
      · exact hik
      · exact ih c hc

/-- A read after a write: the written cell holds the value, every other cell what it held. -/
theorem memRead_memWrite (m : Memory) (k j : Nat) (v : Word) :
    memRead (memWrite m k v) j = if j = k then v else memRead m j := by
  unfold memWrite
  split
  · rename_i hv
    rw [memRead_memErase, hv]
  · by_cases hjk : j = k
    · subst hjk
      rw [if_pos rfl]
      exact memRead_memInsert_same _ _ _ (by rw [memRead_memErase, if_pos rfl]) (memErase_absent m j)
    · rw [memRead_memInsert_other _ _ hjk, memRead_memErase, if_neg hjk, if_neg hjk]

/-! ### The canonical form -/

theorem memWfFrom_cons {lo j : Nat} {v : Word} {rest : Memory} :
    memWfFrom lo ((j, v) :: rest) = true ↔
      lo ≤ j ∧ j < Config.memWords ∧ v ≠ unlistedCell ∧ memWfFrom (j + 1) rest = true := by
  simp [memWfFrom, and_assoc]

theorem memWfFrom_mono {m : Memory} {lo lo' : Nat} (h : memWfFrom lo m = true) (hle : lo' ≤ lo) :
    memWfFrom lo' m = true := by
  cases m with
  | nil => rfl
  | cons c rest =>
    obtain ⟨hlo, hrest⟩ := memWfFrom_cons.mp h
    exact memWfFrom_cons.mpr ⟨by omega, hrest⟩

theorem memWfFrom_memErase {m : Memory} {lo : Nat} (k : Nat) (h : memWfFrom lo m = true) :
    memWfFrom lo (memErase m k) = true := by
  induction m generalizing lo with
  | nil => rfl
  | cons c rest ih =>
    obtain ⟨j, u⟩ := c
    obtain ⟨hlo, hj, hu, hrest⟩ := memWfFrom_cons.mp h
    unfold memErase
    split
    · exact memWfFrom_mono (ih hrest) (by omega)
    · exact memWfFrom_cons.mpr ⟨hlo, hj, hu, ih hrest⟩

theorem memWfFrom_memInsert {m : Memory} {lo k : Nat} {v : Word} (h : memWfFrom lo m = true) (hlo : lo ≤ k)
    (hk : k < Config.memWords) (hv : v ≠ unlistedCell) (hu : ∀ c ∈ m, c.1 ≠ k) :
    memWfFrom lo (memInsert m k v) = true := by
  induction m generalizing lo with
  | nil => exact memWfFrom_cons.mpr ⟨hlo, hk, hv, rfl⟩
  | cons c rest ih =>
    obtain ⟨j, u⟩ := c
    obtain ⟨hj, hjm, hju, hrest⟩ := memWfFrom_cons.mp h
    have hjk : j ≠ k := hu _ (List.mem_cons_self ..)
    unfold memInsert
    split
    · exact memWfFrom_cons.mpr ⟨hlo, hk, hv, memWfFrom_cons.mpr ⟨by omega, hjm, hju, hrest⟩⟩
    · exact memWfFrom_cons.mpr ⟨hj, hjm, hju, ih hrest (by omega) fun c hc => hu c (List.mem_cons_of_mem _ hc)⟩

/-- A write at an address of the address space keeps the canonical form. -/
theorem memWrite_wf {m : Memory} (h : Memory.wf m = true) (a v : Word) : Memory.wf (memWrite m a.toNat v) = true := by
  unfold memWrite
  split
  · exact memWfFrom_memErase _ h
  · exact memWfFrom_memInsert (memWfFrom_memErase _ h) (Nat.zero_le _)
      (by have := a.isLt; simpa [Config.memWords] using this) (by assumption) (memErase_absent m a.toNat)

/-- Below the first address that may be listed nothing is listed. -/
theorem memRead_below {m : Memory} {lo k : Nat} (h : memWfFrom lo m = true) (hk : k < lo) :
    memRead m k = unlistedCell := by
  induction m generalizing lo with
  | nil => rfl
  | cons c rest ih =>
    obtain ⟨hlo, -, -, hrest⟩ := memWfFrom_cons.mp h
    have hne : c.1 ≠ k := by omega
    simp only [memRead, hne, if_false]
    exact ih hrest (by omega)

/-- Canonical memories that read alike are the same list. -/
theorem memory_ext {m m' : Memory} {lo : Nat} (h : memWfFrom lo m = true) (h' : memWfFrom lo m' = true)
    (hr : ∀ k, memRead m k = memRead m' k) : m = m' := by
  induction m generalizing lo m' with
  | nil =>
    cases m' with
    | nil => rfl
    | cons c rest =>
      obtain ⟨-, -, hv, -⟩ := memWfFrom_cons.mp h'
      exact absurd (by simpa [memRead] using hr c.1) (fun e => hv (by simpa [unlistedCell] using e.symm))
  | cons c rest ih =>
    obtain ⟨i, u⟩ := c
    obtain ⟨hi, -, hu, hrest⟩ := memWfFrom_cons.mp h
    cases m' with
    | nil => exact absurd (by simpa [memRead] using hr i) hu
    | cons c' rest' =>
      obtain ⟨j, v⟩ := c'
      obtain ⟨hj, -, hv, hrest'⟩ := memWfFrom_cons.mp h'
      have hij : i = j := by
        rcases Nat.lt_trichotomy i j with hlt | heq | hgt
        · refine absurd ?_ hu
          have := hr i
          simp only [memRead, if_true] at this
          rw [this, if_neg (by omega)]
          exact memRead_below hrest' (by omega)
        · exact heq
        · refine absurd ?_ hv
          have := hr j
          simp only [memRead, if_true] at this
          rw [← this, if_neg (by omega)]
          exact memRead_below hrest (by omega)
      subst hij
      have huv : u = v := by simpa [memRead] using hr i
      subst huv
      refine congrArg _ (ih hrest hrest' fun k => ?_)
      by_cases hk : i = k
      · subst hk
        rw [memRead_below hrest (by omega), memRead_below hrest' (by omega)]
      · simpa [memRead, hk] using hr k

/-! ### Cells of a state -/

theorem State.store_cell (s : State) (a v b : Word) : (s.store a v).cell b = if b = a then v else s.cell b := by
  unfold State.cell
  rw [State.store_mem, memRead_memWrite]
  by_cases h : b = a
  · simp [h]
  · rw [if_neg h, if_neg fun e => h (BitVec.eq_of_toNat_eq e)]

@[simp] theorem State.store_cell_same (s : State) (a v : Word) : (s.store a v).cell a = v := by simp [State.store_cell]

theorem State.store_cell_other (s : State) {a b : Word} (v : Word) (h : b ≠ a) : (s.store a v).cell b = s.cell b := by
  simp [State.store_cell, h]

theorem State.cell_congr {s t : State} (h : t.mem = s.mem) (a : Word) : t.cell a = s.cell a := by
  unfold State.cell; rw [h]

end Sys2Proof.Machine
end

