-- ==== Sys2Proof/Laws/Ops.lean ====
section
/-! SUPPORT. What each shared operation does, said once: an operand write, a push and a pop, the class check, and what
`exec` can answer. -/

namespace Sys2Proof.Machine

/-! ### `setOperand` -/

/-- A location reads back what was written to it (R84, R85). -/
theorem State.setOperand_operand_same (s : State) {o : Operand} (v : Word) (h : o.isLocation = true) :
    (s.setOperand o v).operand o = v := by
  cases o with
  | reg r => exact getReg_setReg_same ..
  | imm k => cases h
  | mem a => exact State.store_cell_same ..

theorem State.setOperand_sameRegs (s : State) (o : Operand) (v : Word) : SameRegsBut o s (s.setOperand o v) := by
  intro r hr
  cases o with
  | reg q => exact getReg_setReg_other _ _ fun e => hr (congrArg _ e)
  | imm k => rfl
  | mem a => rfl

theorem State.setOperand_sameCells (s : State) (o : Operand) (v : Word) : SameCellsBut o s (s.setOperand o v) := by
  intro b hb
  cases o with
  | reg q => rfl
  | imm k => rfl
  | mem a => exact State.store_cell_other _ _ fun e => hb (congrArg _ e.symm)

theorem State.setOperand_wf {s : State} (h : Memory.wf s.mem = true) (o : Operand) (v : Word) :
    Memory.wf (s.setOperand o v).mem = true := by
  cases o with
  | reg r => exact h
  | imm k => exact h
  | mem a => exact memWrite_wf h a v

/-! ### Stack -/

theorem State.push_wf {s : State} (h : Memory.wf s.mem = true) (v : Word) : Memory.wf (s.push v).mem = true :=
  memWrite_wf h s.sp v

theorem State.push_cell_same (s : State) (v : Word) : (s.push v).cell s.sp = v := State.store_cell_same ..

theorem State.push_cell_other (s : State) (v : Word) {b : Word} (h : b ≠ s.sp) : (s.push v).cell b = s.cell b :=
  State.store_cell_other s v h

/-! ### `exec` -/

/-- The state `exec` answers. -/
def effectOf (i : Instr) (s : State) : State :=
  match exec i s with
  | .next t => t
  | .fault _ => s
  | .refused _ => s

/-- `exec` always answers a next state: nothing is refused and nothing faults (R154). -/
theorem exec_eq (i : Instr) (s : State) : exec i s = .next (effectOf i s) := by cases i <;> rfl

/-- An ill-formed instruction raises `InvalidOperand` and has no other effect (R82). -/
theorem effectOf_illFormed {i : Instr} (s : State) (h : i.wellFormed = false) :
    effectOf i s = s.raise .invalidOperand (instrWord i) := by
  cases i <;> first | exact if_neg (by simp [h]) | cases h

section
variable (s : State) (src dst : Operand)

theorem effectOf_mv (h : dst.isLocation = true) : effectOf (.mv src dst) s = s.setOperand dst (s.operand src) := if_pos h
theorem effectOf_io (p : BitVec 12) : effectOf (.io p) s = s.raise .invalidOpcode (instrWord (.io p)) := rfl
theorem effectOf_push : effectOf (.push src) s = s.push (s.operand src) := rfl
theorem effectOf_pop (h : dst.isLocation = true) : effectOf (.pop dst) s = s.popped.setOperand dst s.popValue := if_pos h
theorem effectOf_add (h : dst.isLocation = true) : effectOf (.add src dst) s = s.binary aluAdd src dst := if_pos h
theorem effectOf_sub (h : dst.isLocation = true) : effectOf (.sub src dst) s = s.binary aluSub src dst := if_pos h
theorem effectOf_inc (h : dst.isLocation = true) : effectOf (.inc dst) s = s.unary aluInc dst := if_pos h
theorem effectOf_dec (h : dst.isLocation = true) : effectOf (.dec dst) s = s.unary aluDec dst := if_pos h
theorem effectOf_and (h : dst.isLocation = true) : effectOf (.and src dst) s = s.binary aluAnd src dst := if_pos h
theorem effectOf_or (h : dst.isLocation = true) : effectOf (.or src dst) s = s.binary aluOr src dst := if_pos h
theorem effectOf_not (h : dst.isLocation = true) : effectOf (.not dst) s = s.unary aluNot dst := if_pos h
theorem effectOf_cmp (h : dst.isLocation = true) : effectOf (.cmp src dst) s =
    { s with flags := withCompareFlags s.flags (s.operand src) (s.operand dst) } := if_pos h
theorem effectOf_call : effectOf (.call src) s = { s.push s.ip with ip := s.operand src } := rfl
theorem effectOf_jnz : effectOf (.jnz src) s = if zeroSet s.flags then s else { s with ip := s.operand src } := rfl
theorem effectOf_ret : effectOf .ret s = { s.popped with ip := s.popValue } := rfl
theorem effectOf_hlt : effectOf .hlt s = { s with flags := withHaltFlag s.flags } := rfl

end

/-- Everything a well-formed instruction can do, by shape: a data move, a stack operation, an arithmetic update, a
compare, a transfer, the halt flag, or the fault of `io`. -/
theorem effectOf_cases {i : Instr} (s : State) (h : i.wellFormed = true) :
    (∃ src dst, i = .mv src dst ∧ effectOf i s = s.setOperand dst (s.operand src)) ∨
    (∃ p, i = .io p ∧ effectOf i s = s.raise .invalidOpcode (instrWord i)) ∨
    (∃ src, i = .push src ∧ effectOf i s = s.push (s.operand src)) ∨
    (∃ dst, i = .pop dst ∧ effectOf i s = s.popped.setOperand dst s.popValue) ∨
    (∃ o r, updatesResultFlags i = o.isReg ∧ updatesCompareFlags i = false ∧ transfersControl i = false ∧ i ≠ .hlt ∧
      o.isLocation = true ∧ effectOf i s = s.setResult o r) ∨
    (∃ src dst, i = .cmp src dst ∧
      effectOf i s = { s with flags := withCompareFlags s.flags (s.operand src) (s.operand dst) }) ∨
    (∃ o, i = .call o ∧ effectOf i s = { s.push s.ip with ip := s.operand o }) ∨
    (∃ o, i = .jnz o ∧ effectOf i s = if zeroSet s.flags then s else { s with ip := s.operand o }) ∨
    (i = .ret ∧ effectOf i s = { s.popped with ip := s.popValue }) ∨
    (i = .hlt ∧ effectOf i s = { s with flags := withHaltFlag s.flags }) := by
  cases i with
  | mv src dst => exact .inl ⟨src, dst, rfl, effectOf_mv s src dst h⟩
  | io p => exact .inr (.inl ⟨p, rfl, rfl⟩)
  | push src => exact .inr (.inr (.inl ⟨src, rfl, rfl⟩))
  | pop dst => exact .inr (.inr (.inr (.inl ⟨dst, rfl, effectOf_pop s dst h⟩)))
  | add src dst => exact .inr (.inr (.inr (.inr (.inl ⟨dst, _, rfl, rfl, rfl, nofun, h, effectOf_add s src dst h⟩))))
  | sub src dst => exact .inr (.inr (.inr (.inr (.inl ⟨dst, _, rfl, rfl, rfl, nofun, h, effectOf_sub s src dst h⟩))))
  | inc t => exact .inr (.inr (.inr (.inr (.inl ⟨t, _, rfl, rfl, rfl, nofun, h, effectOf_inc s t h⟩))))
  | dec t => exact .inr (.inr (.inr (.inr (.inl ⟨t, _, rfl, rfl, rfl, nofun, h, effectOf_dec s t h⟩))))
  | and src dst => exact .inr (.inr (.inr (.inr (.inl ⟨dst, _, rfl, rfl, rfl, nofun, h, effectOf_and s src dst h⟩))))
  | or src dst => exact .inr (.inr (.inr (.inr (.inl ⟨dst, _, rfl, rfl, rfl, nofun, h, effectOf_or s src dst h⟩))))
  | not t => exact .inr (.inr (.inr (.inr (.inl ⟨t, _, rfl, rfl, rfl, nofun, h, effectOf_not s t h⟩))))
  | cmp src dst => exact .inr (.inr (.inr (.inr (.inr (.inl ⟨src, dst, rfl, effectOf_cmp s src dst h⟩)))))
  | call t => exact .inr (.inr (.inr (.inr (.inr (.inr (.inl ⟨t, rfl, rfl⟩))))))
  | jnz t => exact .inr (.inr (.inr (.inr (.inr (.inr (.inr (.inl ⟨t, rfl, rfl⟩)))))))
  | ret => exact .inr (.inr (.inr (.inr (.inr (.inr (.inr (.inr (.inl ⟨rfl, rfl⟩))))))))
  | hlt => exact .inr (.inr (.inr (.inr (.inr (.inr (.inr (.inr (.inr ⟨rfl, rfl⟩))))))))

end Sys2Proof.Machine
end

