-- ==== Sys2Proof/Laws/PerInstr.lean ====
section
/-! SUPPORT. Statements for all instructions, proved per constructor (LAWS.json). -/

namespace Sys2Proof.Laws

/-- The first word of an instruction's encoding carries its opcode, and the encoding has the instruction's length. -/
def OpcodeAndLength.Statement (i : Instr) : Prop :=
  opcodeOf (instrWord i) = opcodeBits i.mnemonic ∧ (encode i).length = instrLength i

theorem OpcodeAndLength.two (mk : Operand → Operand → Instr) (m : Mnemonic) (src dst : Operand)
    (hw : instrWord (mk src dst) = packWord m (operandField src) (operandField dst)) (hm : (mk src dst).mnemonic = m)
    (ho : instrOperandWords (mk src dst) = operandWords src ++ operandWords dst)
    (hl : instrLength (mk src dst) = 1 + operandLength src + operandLength dst) :
    OpcodeAndLength.Statement (mk src dst) := by
  refine ⟨by rw [hw, hm, opcodeOf_packWord], ?_⟩
  rw [encode, ho, hl]
  simp
  omega

theorem OpcodeAndLength.one (mk : Operand → Instr) (m : Mnemonic) (o : Operand)
    (hw : instrWord (mk o) = packWord m (operandField o) 0) (hm : (mk o).mnemonic = m)
    (ho : instrOperandWords (mk o) = operandWords o) (hl : instrLength (mk o) = 1 + operandLength o) :
    OpcodeAndLength.Statement (mk o) := by
  refine ⟨by rw [hw, hm, opcodeOf_packWord], ?_⟩
  rw [encode, ho, hl]
  simp
  omega

theorem OpcodeAndLength.mv (src dst : Operand) : OpcodeAndLength.Statement (.mv src dst) := two .mv .mv src dst rfl rfl rfl rfl
theorem OpcodeAndLength.io (payload : BitVec 12) : OpcodeAndLength.Statement (.io payload) :=
  ⟨extract_opcode_of_payload _ payload, rfl⟩
theorem OpcodeAndLength.push (src : Operand) : OpcodeAndLength.Statement (.push src) := one .push .push src rfl rfl rfl rfl
theorem OpcodeAndLength.pop (dst : Operand) : OpcodeAndLength.Statement (.pop dst) := one .pop .pop dst rfl rfl rfl rfl
theorem OpcodeAndLength.add (src dst : Operand) : OpcodeAndLength.Statement (.add src dst) := two .add .add src dst rfl rfl rfl rfl
theorem OpcodeAndLength.sub (src dst : Operand) : OpcodeAndLength.Statement (.sub src dst) := two .sub .sub src dst rfl rfl rfl rfl
theorem OpcodeAndLength.inc (target : Operand) : OpcodeAndLength.Statement (.inc target) := one .inc .inc target rfl rfl rfl rfl
theorem OpcodeAndLength.dec (target : Operand) : OpcodeAndLength.Statement (.dec target) := one .dec .dec target rfl rfl rfl rfl
theorem OpcodeAndLength.and (src dst : Operand) : OpcodeAndLength.Statement (.and src dst) := two .and .and src dst rfl rfl rfl rfl
theorem OpcodeAndLength.or (src dst : Operand) : OpcodeAndLength.Statement (.or src dst) := two .or .or src dst rfl rfl rfl rfl
theorem OpcodeAndLength.not (target : Operand) : OpcodeAndLength.Statement (.not target) := one .not .not target rfl rfl rfl rfl
theorem OpcodeAndLength.cmp (src dst : Operand) : OpcodeAndLength.Statement (.cmp src dst) := two .cmp .cmp src dst rfl rfl rfl rfl
theorem OpcodeAndLength.call (target : Operand) : OpcodeAndLength.Statement (.call target) := one .call .call target rfl rfl rfl rfl
theorem OpcodeAndLength.jnz (target : Operand) : OpcodeAndLength.Statement (.jnz target) := one .jnz .jnz target rfl rfl rfl rfl
theorem OpcodeAndLength.ret : OpcodeAndLength.Statement .ret := ⟨opcodeOf_packWord .ret 0 0, rfl⟩
theorem OpcodeAndLength.hlt : OpcodeAndLength.Statement .hlt := ⟨opcodeOf_packWord .hlt 0 0, rfl⟩

end Sys2Proof.Laws
end

