-- ==== Sys2Proof/Laws/Step.lean ====
section
/-! SUPPORT. Everything one step can do, said once. -/

namespace Sys2Proof.Machine

theorem step_of_ok {s : State} {i : Instr} (hr : s.run = .running) (hf : s.fetchInstr = .ok i) :
    step s = .next (effectOf i (s.advance (instrLength i))).haltCheck := by
  unfold step
  rw [hr]
  simp only [hf]
  rw [exec_eq]
  rfl

theorem step_of_error {s : State} {e : DecodeError} (hr : s.run = .running) (hf : s.fetchInstr = .error e) :
    step s = .next (s.refuseWord e) := by
  unfold step
  rw [hr]
  simp only [hf]

/-- If a step answers a next state, the core was running and either the word at `ip` was refused or the instruction it
decodes to had its effect and the halt check followed. -/
theorem step_cases {s t : State} (h : step s = .next t) :
    s.run = .running ∧
      ((∃ e, s.fetchInstr = .error e ∧ t = s.refuseWord e) ∨
        (∃ i, s.fetchInstr = .ok i ∧ i.wellFormed = true ∧ t = (effectOf i (s.advance (instrLength i))).haltCheck)) := by
  have hr : s.run = .running := by
    cases hr : s.run <;> first | rfl | (unfold step at h; rw [hr] at h; cases h)
  refine ⟨hr, ?_⟩
  cases hf : s.fetchInstr with
  | error e =>
    rw [step_of_error hr hf] at h
    cases h
    exact .inl ⟨e, rfl, rfl⟩
  | ok i =>
    rw [step_of_ok hr hf] at h
    cases h
    exact .inr ⟨i, rfl, decode_wellFormed hf, rfl⟩

/-- A step is taken exactly when the core is running (R80, R154). -/
theorem step_isNext_iff (s : State) : (∃ t, step s = .next t) ↔ s.run = .running := by
  constructor
  · rintro ⟨t, h⟩
    exact (step_cases h).1
  · intro hr
    cases hf : s.fetchInstr with
    | error e => exact ⟨_, step_of_error hr hf⟩
    | ok i => exact ⟨_, step_of_ok hr hf⟩

end Sys2Proof.Machine
end

