-- ==== Sys2Proof/Tests/Slice0.lean ====
section
/-! SUPPORT. Tests with expected results from spec/ (95_test_vectors.md; a test names its vector), and witnesses that the
hypotheses of the statements can be met. Names ST1, A2, … are the vectors'. -/

namespace Sys2Proof.Tests

open Sys2Proof Sys2Proof.Machine

/-! ### Helpers -/

/-- A running state with the illustration value 0xF000 in `sp` and `bp` and the given words from `ip` on. -/
def start (ip : Word) (words : List Word) (regs : Regs := ⟨0, 0, 0, 0⟩) (flags : Word := 0) (sp : Word := 0xF000) :
    State :=
  State.placeWords { regs := regs, ip := ip, sp := sp, bp := 0xF000, flags := flags, mem := [], run := .running } ip words

/-- The answer is a next state with the property. -/
def nextIs (r : Result) (p : State → Bool) : Bool :=
  match r with
  | .next t => p t
  | .fault _ => false
  | .refused _ => false

/-- The step answers a next state that agrees in `ip`, flags and run state. -/
def stepped (s : State) (ip flags : Word) (run : RunState := .running) : Bool :=
  nextIs (step s) fun t => t.ip == ip && t.flags == flags && t.run == run

/-- The values the next state holds in A, B, C, D. -/
def steppedRegs (s : State) (a b c d : Word) : Bool := nextIs (step s) fun t => t.regs == ⟨a, b, c, d⟩

/-- The value the next state holds in a cell. -/
def steppedCell (s : State) (a v : Word) : Bool := nextIs (step s) fun t => t.cell a == v

/-- The next state's `sp`. -/
def steppedSp (s : State) (v : Word) : Bool := nextIs (step s) fun t => t.sp == v

/-! ### WellFormed: an immediate where a location is asked for is refused, in each of the ten mnemonics (R58) -/

theorem test_illFormed_mv : (Instr.mv (.reg .a) (.imm 5)).wellFormed = false := by decide
theorem test_illFormed_pop : (Instr.pop (.imm 5)).wellFormed = false := by decide
theorem test_illFormed_add : (Instr.add (.reg .a) (.imm 5)).wellFormed = false := by decide
theorem test_illFormed_sub : (Instr.sub (.mem 1) (.imm 5)).wellFormed = false := by decide
theorem test_illFormed_inc : (Instr.inc (.imm 5)).wellFormed = false := by decide
theorem test_illFormed_dec : (Instr.dec (.imm 5)).wellFormed = false := by decide
theorem test_illFormed_and : (Instr.and (.imm 5) (.imm 5)).wellFormed = false := by decide
theorem test_illFormed_or : (Instr.or (.reg .b) (.imm 5)).wellFormed = false := by decide
theorem test_illFormed_not : (Instr.not (.imm 5)).wellFormed = false := by decide
theorem test_illFormed_cmp : (Instr.cmp (.mem 1) (.imm 0)).wellFormed = false := by decide

/-- The value positions take an immediate, and `io`, `ret`, `hlt` have no operand to check (R58). -/
theorem test_wellFormed_values :
    ([.push (.imm 5), .call (.imm 5), .jnz (.imm 5), .mv (.imm 5) (.mem 6), .cmp (.imm 5) (.reg .d), .io 0x450, .ret,
      .hlt] : List Instr).all Instr.wellFormed = true := by decide

/-! ### Decode, words written out from the spec (section 2.10 and the vectors' words) -/

theorem test_decode_mv :
    decode 0x0000 1 2 = .ok (.mv (.reg .a) (.reg .a)) ∧ decode 0x0E10 1 2 = .ok (.mv (.imm 1) (.reg .b)) ∧
      decode 0x0FF0 1 2 = .ok (.mv (.mem 1) (.mem 2)) ∧ decode 0x012A 1 2 = .ok (.mv (.reg .b) (.reg .c)) := by decide
theorem test_decode_io :
    decode 0x1234 1 2 = .ok (.io 0x234) ∧ decode 0x1FFF 1 2 = .ok (.io 0xFFF) := by decide
theorem test_decode_push :
    decode 0x2E00 1 2 = .ok (.push (.imm 1)) ∧ decode 0x2070 1 2 = .ok (.push (.reg .a)) := by decide
theorem test_decode_pop :
    decode 0x3F00 1 2 = .ok (.pop (.mem 1)) ∧ decode 0x3100 1 2 = .ok (.pop (.reg .b)) := by decide
theorem test_decode_add :
    decode 0x43F0 1 2 = .ok (.add (.reg .d) (.mem 1)) ∧ decode 0x4E20 1 2 = .ok (.add (.imm 1) (.reg .c)) := by decide
theorem test_decode_sub :
    decode 0x5EF0 1 2 = .ok (.sub (.imm 1) (.mem 2)) ∧ decode 0x5100 1 2 = .ok (.sub (.reg .b) (.reg .a)) := by decide
theorem test_decode_inc :
    decode 0x6F00 1 2 = .ok (.inc (.mem 1)) ∧ decode 0x6400 1 2 = .error .sourceField := by decide
theorem test_decode_dec :
    decode 0x7200 1 2 = .ok (.dec (.reg .c)) ∧ decode 0x7900 1 2 = .error .sourceField := by decide
theorem test_decode_and :
    decode 0x80F0 1 2 = .ok (.and (.reg .a) (.mem 1)) ∧ decode 0x8760 1 2 = .error .sourceField := by decide
theorem test_decode_or :
    decode 0x9006 1 2 = .ok (.or (.reg .a) (.reg .a)) ∧ decode 0x9EF0 1 2 = .ok (.or (.imm 1) (.mem 2)) := by decide
theorem test_decode_not :
    decode 0xA300 1 2 = .ok (.not (.reg .d)) ∧ decode 0xAE00 1 2 = .error .immediateLocation := by decide
theorem test_decode_cmp :
    decode 0xBEF0 1 2 = .ok (.cmp (.imm 1) (.mem 2)) ∧ decode 0xB2E0 1 2 = .error .immediateLocation := by decide
theorem test_decode_call :
    decode 0xC100 1 2 = .ok (.call (.reg .b)) ∧ decode 0xCE00 1 2 = .ok (.call (.imm 1)) := by decide
theorem test_decode_jnz :
    decode 0xDF00 1 2 = .ok (.jnz (.mem 1)) ∧ decode 0xDE00 1 2 = .ok (.jnz (.imm 1)) := by decide
theorem test_decode_ret : decode 0xE123 1 2 = .ok .ret ∧ decode 0xE000 1 2 = .ok .ret := by decide
theorem test_decode_hlt : decode 0xF000 1 2 = .ok .hlt ∧ decode 0xFFFF 1 2 = .ok .hlt := by decide

/-- The ends of the invalid range 4 to 13, and 14 as a destination (R53, R58). -/
theorem test_decode_refusals :
    decode 0x0400 1 2 = .error .sourceField ∧ decode 0x0D00 1 2 = .error .sourceField ∧
      decode 0x0040 1 2 = .error .destinationField ∧ decode 0x00D0 1 2 = .error .destinationField ∧
      decode 0x00E0 1 2 = .error .immediateLocation ∧ decode 0x3E00 1 2 = .error .immediateLocation ∧
      decode 0xC400 1 2 = .error .sourceField ∧ decode 0xDD00 1 2 = .error .sourceField := by decide

/-- The words of P3 and P8, by the encoder. -/
theorem test_encode :
    encode (.call (.imm 0x4007)) = [0xCE00, 0x4007] ∧ encode (.mv (.reg .a) (.mem 0x4009)) = [0x00F0, 0x4009] ∧
      encode (.add (.imm 0x7FFF) (.mem 0x4010)) = [0x4EF0, 0x7FFF, 0x4010] ∧ encode .ret = [0xE000] ∧
      encode .hlt = [0xF000] := by decide

/-- An instruction's bits as the opcode table numbers them: the first word in bits 15 to 0. -/
theorem test_tableWord :
    decodeTableWord 48 0x50015000_0FF0 = some (.mv (.mem 0x5000) (.mem 0x5001)) ∧
      decodeTableWord 16 0x0E10 = some (.mv (.imm 0) (.reg .b)) ∧ decodeTableWord 16 0x00E0 = none := by decide

/-- The placed instruction is the one the next step runs, here across the top of memory (M8). -/
theorem test_withFetchWord :
    steppedRegs ((start 0xFFFF []).withFetchWord 32 0x1234_0E00) 0x1234 0 0 0 = true := by decide

/-! ### One step each (vectors 2.1 to 2.8) -/

/-- M4 -/
theorem test_mv_memory :
    steppedCell ((start 0x4000 [0x0FF0, 0x5000, 0x5001]).store 0x5000 0x0077) 0x5001 0x0077 = true := by decide
/-- M8 -/
theorem test_mv_wraps : stepped (start 0xFFFF [0x0E00, 0x1234]) 0x0001 0 = true := by decide
/-- ST3 -/
theorem test_push_memory :
    steppedCell ((start 0x4000 [0x2F00, 0x5000]).store 0x5000 0x0BAD) 0xF000 0x0BAD = true := by decide
/-- ST4 -/
theorem test_push_wraps : steppedSp (start 0x4000 [0x2300] ⟨0, 0, 0, 0xDD⟩ 0 0xFFFF) 0 = true := by decide
/-- ST7 -/
theorem test_pop_memory :
    steppedCell (((start 0x4000 [0x3F00, 0x5000] ⟨0, 0, 0, 0⟩ 0 0xF002).store 0xF000 1).store 0xF001 2) 0x5000 2
      = true := by decide
/-- ST8 -/
theorem test_pop_wraps :
    nextIs (step ((start 0x4000 [0x3200] ⟨0, 0, 0, 0⟩ 0 0).store 0xFFFF 0x7777))
      (fun t => t.regs.c == 0x7777 && t.sp == 0xFFFF) = true := by decide
/-- A2 -/
theorem test_add_wraps : stepped (start 0x4000 [0x4E00, 1] ⟨0xFFFF, 0, 0, 0⟩ 4) 0x4002 2 = true := by decide
/-- A4 -/
theorem test_add_same_register :
    steppedRegs (start 0x4000 [0x4000] ⟨0x8001, 0, 0, 0⟩) 2 0 0 0 = true := by decide
/-- B3 -/
theorem test_sub_order :
    steppedRegs (start 0x4000 [0x5100] ⟨1, 0xFFFF, 0, 0⟩) 2 0xFFFF 0 0 = true := by decide
/-- B5: a memory result of 0 leaves the flags. -/
theorem test_sub_memory_keeps_flags :
    stepped ((start 0x4000 [0x5EF0, 5, 0x5000] ⟨0, 0, 0, 0⟩ 1).store 0x5000 5) 0x4003 1 = true := by decide
/-- AN3 -/
theorem test_and_negative : stepped (start 0x4000 [0x8E00, 0x8000] ⟨0xFFFF, 0, 0, 0⟩) 0x4002 4 = true := by decide
/-- AN4 -/
theorem test_and_memory :
    steppedCell ((start 0x4000 [0x80F0, 0x5000] ⟨0xFF, 0, 0, 0⟩ 1).store 0x5000 0xABCD) 0x5000 0xCD = true := by decide
/-- O1 -/
theorem test_or_registers :
    steppedRegs (start 0x4000 [0x9010] ⟨0xFF, 0xF00, 0, 0⟩) 0xFF 0xFFF 0 0 = true := by decide
/-- O3 -/
theorem test_or_zero : stepped (start 0x4000 [0x9000] ⟨0, 0, 0, 0⟩ 1) 0x4001 2 = true := by decide
/-- NT4 -/
theorem test_not_memory :
    steppedCell ((start 0x4000 [0xAF00, 0x5000] ⟨0, 0, 0, 0⟩ 2).store 0x5000 0x0F0F) 0x5000 0xF0F0 = true := by decide
/-- NT6: the unused field is ignored. -/
theorem test_not_unused_field :
    steppedRegs (start 0x4000 [0xA010] ⟨0x8000, 0x1111, 0, 0⟩) 0x7FFF 0x1111 0 0 = true := by decide
/-- I3 -/
theorem test_inc_sign : stepped (start 0x4000 [0x6300] ⟨0, 0, 0, 0x7FFF⟩ 1) 0x4001 4 = true := by decide
/-- I4 -/
theorem test_inc_memory :
    steppedCell ((start 0x4000 [0x6F00, 0x4010] ⟨0, 0, 0, 0⟩ 2).store 0x4010 0x8000) 0x4010 0x8001 = true := by decide
/-- E3 -/
theorem test_dec_from_zero : stepped (start 0x4000 [0x7000] ⟨0, 0, 0, 0⟩ 2) 0x4001 4 = true := by decide
/-- E5 -/
theorem test_dec_memory_keeps_flags :
    stepped ((start 0x4000 [0x7F00, 0x5000] ⟨0, 0, 0, 0⟩ 1).store 0x5000 1) 0x4002 1 = true := by decide
/-- K5: unsigned. -/
theorem test_cmp_unsigned : stepped (start 0x4000 [0xB010] ⟨0x8000, 0x7FFF, 0, 0⟩) 0x4001 0x40 = true := by decide
/-- K7: memory operands set flags, the zero flag is kept. -/
theorem test_cmp_memory :
    stepped (((start 0x4000 [0xBFF0, 0x5000, 0x5001] ⟨0, 0, 0, 0⟩ 2).store 0x5000 1).store 0x5001 2) 0x4003 0x12
      = true := by decide
/-- J4: the old content of the stack cell is the target. -/
theorem test_call_through_stack_cell :
    nextIs (step ((start 0x4002 [0xCF00, 0xF000]).store 0xF000 0x4300))
      (fun t => t.ip == 0x4300 && t.cell 0xF000 == 0x4004) = true := by decide
/-- J2 -/
theorem test_call_register :
    steppedCell (start 0x4002 [0xC200] ⟨0, 0, 0x4100, 0⟩) 0xF000 0x4003 = true := by decide
/-- T2 -/
theorem test_ret_unused_bits :
    stepped ((start 0x4008 [0xEABC] ⟨0, 0, 0, 0⟩ 0 0xF001).store 0xF000 0x4004) 0x4004 0 = true := by decide
/-- T4 -/
theorem test_ret_wraps :
    steppedSp ((start 0x4008 [0xE000] ⟨0, 0, 0, 0⟩ 0 0).store 0xFFFF 0x4321) 0xFFFF = true := by decide
/-- Z2 -/
theorem test_jnz_falls_through : stepped (start 0x4001 [0xDE00, 0x4000] ⟨0, 0, 0, 0⟩ 2) 0x4003 2 = true := by decide
/-- Z4: the equal flag is not tested. -/
theorem test_jnz_ignores_equal : stepped (start 0x4001 [0xDE00, 0x4000] ⟨0, 0, 0, 0⟩ 0x24) 0x4000 0x24 = true := by decide
/-- H2 -/
theorem test_hlt : stepped (start 0x4000 [0xFFFF] ⟨0, 0, 0, 0⟩ 0x42) 0x4001 0x142 .halted = true := by decide
/-- X3: invalid fields do not matter. -/
theorem test_io :
    stepped (start 0x4000 [0x1450]) 0x4001 0 (.faulted .invalidOpcode 0x1450) = true := by decide
/-- M10 -/
theorem test_immediate_destination_faults :
    stepped (start 0x4000 [0x00E0, 5] ⟨1, 0, 0, 0⟩) 0x4001 0 (.faulted .invalidOperand 0x00E0) = true := by decide
/-- ST10: the stack is untouched. -/
theorem test_pop_immediate_faults :
    nextIs (step (start 0x4000 [0x3E00, 1] ⟨0, 0, 0, 0⟩ 0 0xF001))
      (fun t => t.sp == 0xF001 && t.run == .faulted .invalidOperand 0x3E00) = true := by decide

/-- Section 2.1's M4 on the ports: three words, the source, one write (R37). -/
theorem test_accesses :
    stepAccesses ((start 0x4000 [0x0FF0, 0x5000, 0x5001]).store 0x5000 0x0077) =
      [.read 0x4000, .read 0x4001, .read 0x4002, .read 0x5000, .write 0x5001 0x0077] := by decide

/-- The host reads the state at the end of a run and not before (R46); `halted` is flags bit 8 (R9). -/
theorem test_readOut :
    readOut (start 0x4000 [0xF000]) = none ∧
      nextIs (step (start 0x4000 [0xF000])) (fun t => haltedOutput t && (readOut t).isSome && faultOutput t == none)
        = true := by decide

/-! ### Loader and assembler (sections S1 to S4 and 2.9) -/

/-- S1: source, words, image and symbol. -/
theorem test_assemble_S1 :
    assembleText {} "start: mv #5, a\nadd #3, a\nhlt" =
      .ok ⟨[0x0E00, 0x0005, 0x4E00, 0x0003, 0xF000], [(['s', 't', 'a', 'r', 't'], 0x4000)]⟩ := by decide
theorem test_image_S1 :
    imageOfWords [0x0E00, 0x0005, 0x4E00, 0x0003, 0xF000] =
      [0x00, 0x0E, 0x05, 0x00, 0x00, 0x4E, 0x03, 0x00, 0x00, 0xF0] := by decide
/-- S2: a label operand is the label's address. -/
theorem test_assemble_S2 :
    (assembleText {} "loop: dec a\njnz loop\nhlt").toOption.map Assembly.words =
      some [0x7000, 0xDE00, 0x4000, 0xF000] := by decide
/-- S3 -/
theorem test_assemble_S3 :
    (assembleText {} "count: .data 42\nmv [count], a").toOption.map Assembly.words =
      some [0x002A, 0x0F00, 0x4000] := by decide
/-- S4 -/
theorem test_assemble_S4 : assembleText {} "jnz nowhere" = .error (1, .undefinedLabel) := by decide
/-- P8's seventh line is refused (R69). -/
theorem test_assemble_immediate_destination :
    assembleText {} "hlt\ncmp [v], #0\nv: .data 1" = .error (2, .invalidOperandType) := by decide
/-- R66: `sp` is refused by default and is code 5 with the parameter. -/
theorem test_assemble_special :
    assembleText {} "push sp" = .error (1, .invalidRegisterName) ∧
      (assembleText { specialRegs := true } "push sp").toOption.map Assembly.words = some [0x2500] := by decide
/-- DD3, DD4, DD5 -/
theorem test_assemble_string :
    (assembleText {} "s: .string \"Hi!\"").toOption.map Assembly.words = some [0x6948, 0x0021] ∧
      (assembleText {} "t: .string \"LLAM\"").toOption.map Assembly.words = some [0x4C4C, 0x4D41, 0x0000] ∧
      (assembleText {} "e: .string \"\"").toOption.map Assembly.words = some [0x0000] := by decide
/-- The listing of section 2.9. -/
theorem test_listing :
    listing [("start".toList, 0x4000), ("averyveryverylonglabel".toList, 0x4012)] =
      ["4000 START".toList, "4012 AVERYVERYVERYLON".toList] := by decide
/-- Section 2.9's image, loaded. -/
theorem test_load :
    (loadImage [0x00, 0x0E, 0x05, 0x00, 0x00, 0x4E, 0x03, 0x00, 0x00, 0xF0] (start 0x4000 [])).toOption.map State.mem =
      some [(0x4000, 0x0E00), (0x4001, 0x0005), (0x4002, 0x4E00), (0x4003, 0x0003), (0x4004, 0xF000)] := by decide
/-- Nine bytes are refused. -/
theorem test_load_odd :
    loadImage [0, 0x0E, 5, 0, 0, 0x4E, 3, 0, 0] (start 0x4000 []) = .error .oddLength := by decide

/-! ### Witnesses: the hypotheses of the statements can be met -/

theorem witness_DecodeEncodeRoundTrip :
    (Instr.mv (.imm 7) (.mem 0xFFFF)).wellFormed = true ∧ (Instr.io 0xFFF).wellFormed = true := by decide
/-- Also for `DecodedLengthFromWord` and `OpcodeMapInOrder`; the second word has unused bits set. -/
theorem witness_EncodeDecodeCanonical :
    decode 0x0FF0 7 8 = .ok (.mv (.mem 7) (.mem 8)) ∧ decode 0x20FF 7 8 = .ok (.push (.reg .a)) ∧
      decode 0xF000 7 8 = .ok .hlt := by decide
theorem witness_UnusedBitsIgnored :
    canonicalWord 0x012A = (0x0127 : Word) &&& ~~~unusedBits (mnemonicOf (opcodeOf 0x012A)) := by decide
theorem witness_RefusedWordsAreTheListedOnes :
    ([(0x0400, 0, 4, 0), (0x0D00, 0, 13, 0), (0x0040, 0, 0, 4), (0x00E0, 0, 0, 14), (0x2400, 2, 4, 0), (0xDD00, 13, 13, 0),
      (0x3E00, 3, 14, 0), (0xA400, 10, 4, 0)] : List (Word × Nat × Nat × Nat)).all
      (fun x => wordFields x.1 == x.2 && !(decode x.1 0 0).toBool) = true := by decide
theorem witness_StepRunsDecodedInstruction :
    (start 0x4000 [0x4E00, 3]).run = .running ∧
      decode ((start 0x4000 [0x4E00, 3]).cell 0x4000) ((start 0x4000 [0x4E00, 3]).cell 0x4001)
        ((start 0x4000 [0x4E00, 3]).cell 0x4002) = .ok (.add (.imm 3) (.reg .a)) := by decide
theorem witness_StepRunsStoredInstruction :
    (start 0xFFFF [0x0EF0, 7, 0x5000]).run = .running ∧ (Instr.mv (.imm 7) (.mem 0x5000)).wellFormed = true ∧
      ∀ k w, (encode (.mv (.imm 7) (.mem 0x5000)))[k]? = some w →
        (start 0xFFFF [0x0EF0, 7, 0x5000]).cell (0xFFFF + BitVec.ofNat 16 k) = w := by
  refine ⟨by decide, by decide, fun k w h => ?_⟩
  match k with
  | 0 => cases h; decide
  | 1 => cases h; decide
  | 2 => cases h; decide
  | k + 3 => cases h
theorem witness_StepRefusesInvalidWord :
    (start 0x4000 [0x0040]).run = .running ∧
      decode ((start 0x4000 [0x0040]).cell 0x4000) ((start 0x4000 [0x0040]).cell 0x4001)
        ((start 0x4000 [0x0040]).cell 0x4002) = .error .destinationField := by decide
theorem witness_TerminalStatesHaveNoStep :
    (∃ s : State, s.run = .halted) ∧ ∃ s : State, s.run = .faulted .invalidOpcode 0x1234 :=
  ⟨⟨{ start 0 [] with run := .halted }, rfl⟩, ⟨{ start 0 [] with run := .faulted .invalidOpcode 0x1234 }, rfl⟩⟩
/-- Both sides: a halted state does not step, a running one does. -/
theorem witness_RunningCoreAlwaysSteps :
    (∃ t, step (start 0x4000 [0x0400]) = .next t) ∧ ({ start 0 [] with run := .halted } : State).run ≠ .running :=
  ⟨⟨_, rfl⟩, by decide⟩
/-- A step that halts and one that does not, from states with the halt flag clear. Also for
`FlagGroupsHoldOneFlagAfterUpdate`, `HaltFlagSetByHltAlone`, `BpNeitherReadNorWritten`, `StepWritesAtMostOneCellLast`,
whose one hypothesis is that the step answers a next state. -/
theorem witness_HaltCheckFollowsHaltFlag :
    (haltSet (start 0x4000 [0xF000]).flags = false ∧ ∃ t, step (start 0x4000 [0xF000]) = .next t ∧ t.run = .halted) ∧
      haltSet (start 0x4000 [0x4E00, 3]).flags = false ∧
        ∃ t, step (start 0x4000 [0x4E00, 3]) = .next t ∧ t.run = .running :=
  ⟨⟨by decide, _, rfl, rfl⟩, by decide, _, rfl, rfl⟩
/-- Each branch of the two clauses: an update of the result flags, of the compare flags, of neither. -/
theorem witness_FlagGroupsHoldOneFlagAfterUpdate :
    fetchedIs updatesResultFlags (start 0x4000 [0x7000]) = true ∧
      fetchedIs updatesResultFlags (start 0x4000 [0x7F00, 0x5000]) = false ∧
      fetchedIs updatesCompareFlags (start 0x4000 [0xB010]) = true ∧
      fetchedIs updatesCompareFlags (start 0x4000 [0x0400]) = false := by decide
theorem witness_IpAfterPlainStep :
    (∃ t, step (start 0xFFFF [0x0E00, 0x1234]) = .next t) ∧
      (start 0xFFFF [0x0E00, 0x1234]).fetchInstr = .ok (.mv (.imm 0x1234) (.reg .a)) ∧
      transfersControl (.mv (.imm 0x1234) (.reg .a)) = false ∧
      (Instr.mv (.imm 0x1234) (.reg .a)).mnemonic ≠ .io := ⟨⟨_, rfl⟩, by decide, by decide, by decide⟩
theorem witness_OnlyZeroAndHaltFlagsAreRead :
    SameFlagsOutside 0xFEFD (start 0x4001 [0xDE00, 0x4000] ⟨0, 0, 0, 0⟩ 2).flags 0x7A ∧
      ∃ t, step (start 0x4001 [0xDE00, 0x4000] ⟨0, 0, 0, 0⟩ 2) = .next t :=
  ⟨by unfold SameFlagsOutside; decide, _, rfl⟩
theorem witness_StepKeepsInvariant :
    (start 0x4000 [0x4E00, 3] ⟨5, 0, 0, 0⟩ 0x21).Inv ∧
      ∃ t, step (start 0x4000 [0x4E00, 3] ⟨5, 0, 0, 0⟩ 0x21) = .next t :=
  ⟨⟨by decide, by decide, by decide, by decide, by decide⟩, _, rfl⟩
/-- For every statement about a location: a register and a memory cell. -/
theorem witness_locations :
    (Operand.reg .d).isLocation = true ∧ (Operand.mem 0xFFFF).isLocation = true := by decide
/-- The longest stack the statement speaks of. -/
theorem witness_StackSymmetry : ∃ vs : List Word, vs.length = 65536 := ⟨List.replicate _ 0, List.length_replicate⟩
/-- Both operands take a word, and the destination alone does. -/
theorem witness_OperandWordsSourceFirst :
    Instr.add (.imm 7) (.mem 8) ∈ [Instr.mv (.imm 7) (.mem 8), .add (.imm 7) (.mem 8)] ∧
      decode 0x4EF0 7 8 = .ok (.add (.imm 7) (.mem 8)) ∧ decode 0x43F0 7 8 = .ok (.add (.reg .d) (.mem 7)) := by decide
/-- A register and a memory destination. -/
theorem witness_ResultFlagsForRegistersOnly :
    (Operand.reg .a).isLocation = true ∧ (Operand.reg .a).isReg = true ∧ (Operand.mem 0).isLocation = true ∧
      (Operand.mem 0).isReg = false ∧ Instr.dec (.mem 0) ∈ [Instr.inc (.mem 0), .dec (.mem 0)] := by decide
theorem witness_NotTwiceRestores :
    (Operand.mem 0x5000).isLocation = true ∧ ∃ t u, exec (.not (.mem 0x5000)) (start 0x4000 []) = .next t ∧
      exec (.not (.mem 0x5000)) t = .next u := ⟨by decide, _, _, rfl, rfl⟩
theorem witness_JnzTestsZeroFlag :
    (start 0x4000 [] ⟨0, 0, 0, 0⟩ 4).flags.getLsbD 1 = false ∧
      (start 0x4000 [] ⟨0, 0, 0, 0⟩ 2).flags.getLsbD 1 = true := by decide
theorem witness_HltSetsHaltFlag :
    (start 0x4000 [0xFABC]).run = .running ∧ ((start 0x4000 [0xFABC]).cell 0x4000).toNat / 4096 = 15 := by decide
theorem witness_IoRaisesInvalidOpcode :
    (start 0x4000 [0x1ABC]).run = .running ∧ ((start 0x4000 [0x1ABC]).cell 0x4000).toNat / 4096 = 1 := by decide
theorem witness_IllFormedInstructionRaises : (Instr.cmp (.reg .a) (.imm 0)).wellFormed = false := by decide
theorem witness_RetReturnsFromCall :
    ∃ t u, exec (.call (.imm 0x4007)) (start 0x4004 []) = .next t ∧ exec .ret t = .next u := ⟨_, _, rfl, rfl⟩
theorem witness_PushThenRetJumps :
    ∃ t u, exec (.push (.imm 0x4007)) (start 0x4002 []) = .next t ∧ exec .ret t = .next u := ⟨_, _, rfl, rfl⟩
theorem witness_AllZeroWordOnlyAdvances :
    (start 0x4000 []).run = .running ∧ haltSet (start 0x4000 []).flags = false ∧ (start 0x4000 []).cell 0x4000 = 0 := by
  decide
/-- At the top of memory the words and the next instruction wrap. -/
theorem witness_StoreIsSeenByNextFetch :
    (start 0xFFFE [0x0EF0, 0xF000, 0x0001]).run = .running ∧ haltSet (start 0xFFFE [0x0EF0, 0xF000, 0x0001]).flags = false ∧
      (start 0xFFFE [0x0EF0, 0xF000, 0x0001]).cell 0xFFFE = 0x0EF0 ∧
      (start 0xFFFE [0x0EF0, 0xF000, 0x0001]).cell (0xFFFE + 1) = 0xF000 ∧
      (start 0xFFFE [0x0EF0, 0xF000, 0x0001]).cell (0xFFFE + 2) = 0xFFFE + 3 := by decide
/-- Both clauses: a step that writes the cell it fetches next, and one that writes no cell. -/
theorem witness_EveryWriteIsSeenByNextFetch :
    ((∃ t, step (start 0x4000 [0x0EF0, 0xF000, 0x4003]) = .next t ∧ t.ip = 0x4003) ∧
        (start 0x4000 [0x0EF0, 0xF000, 0x4003]).fetchInstr = .ok (.mv (.imm 0xF000) (.mem 0x4003)) ∧
        .write 0x4003 0xF000 ∈ dataWrites (.mv (.imm 0xF000) (.mem 0x4003))
          ((start 0x4000 [0x0EF0, 0xF000, 0x4003]).advance 3)) ∧
      (∃ t, step (start 0x4000 [0x6000]) = .next t) ∧ (start 0x4000 [0x6000]).fetchInstr = .ok (.inc (.reg .a)) ∧
        dataWrites (.inc (.reg .a)) ((start 0x4000 [0x6000]).advance 1) = [] :=
  ⟨⟨⟨_, rfl, rfl⟩, by decide, by decide⟩, ⟨_, rfl⟩, by decide, by decide⟩
/-- The empty image and the longest one. -/
theorem witness_LoaderPlacesImage :
    ([] : List Byte).length = 2 * 0 ∧ ∃ image : List Byte, image.length = 2 * 49152 :=
  ⟨rfl, List.replicate _ 0, List.length_replicate⟩
theorem witness_ImageIsLittleEndianWords :
    ([0x0E00, 0x0005] : List Word)[1]? = some 0x0005 ∧ ([0x0E00, 0x0005] : List Word).length ≤ 49152 := by decide
/-- Each ground of refusal; the longest image that is placed is `witness_LoaderPlacesImage`'s. -/
theorem witness_LoaderRefusesUnplaceableImages :
    (∃ image : List Byte, image.length = 9) ∧ ∃ image : List Byte, image.length = 98306 :=
  ⟨⟨List.replicate _ 0, List.length_replicate⟩, List.replicate _ 0, List.length_replicate⟩
theorem witness_AssembledAddressesAgree :
    ∃ lines syms ws before after n line l,
      passOne {} ["mv #0, b".toList, "loop: dec b".toList, "jnz loop".toList] 1 0 [] = .ok (lines, syms) ∧
        passTwo syms lines = .ok ws ∧ lines = before ++ (n, line) :: after ∧ line.label = some l ∧
        lookupSymbol l syms = some 0x4002 :=
  ⟨_, _, _, [_], [_], _, _, _, rfl, rfl, rfl, rfl, rfl⟩
theorem witness_EmittedInstructionIsEncoded :
    checkOperands .add [.imm (.literal 5), .mem (.label ['v'])] = .ok () ∧
      ([.imm (.literal 5), .mem (.label ['v'])] : List AsmOperand).all AsmOperand.isOrdinary = true ∧
      emitStatement [(['v'], 0x4010)] (.instr .add [.imm (.literal 5), .mem (.label ['v'])]) =
        .ok [0x4EF0, 5, 0x4010] ∧
      [.imm (.literal 5), .mem (.label ['v'])].map (AsmOperand.meaning [(['v'], 0x4010)]) =
        [some (.imm 5), some (.mem 0x4010)] := by decide

end Sys2Proof.Tests
end

section
/-! SUPPORT. The statements about the state: the halt flag (R23) and reset (R28). -/

namespace Sys2Proof.Machine

/-! ### The halt flag -/

/-- What an instruction does to `flags`: nothing, an update of one group, or `hlt`'s bit (R25, R27). -/
theorem effectOf_flags_cases {i : Instr} (s : State) (h : i.wellFormed = true) :
    (i ≠ .hlt ∧ updatesResultFlags i = false ∧ updatesCompareFlags i = false ∧ (effectOf i s).flags = s.flags) ∨
    (i ≠ .hlt ∧ updatesResultFlags i = true ∧ updatesCompareFlags i = false ∧
      ∃ r, (effectOf i s).flags = withResultFlags s.flags r) ∨
    (i ≠ .hlt ∧ updatesResultFlags i = false ∧ updatesCompareFlags i = true ∧
      ∃ sv dv, (effectOf i s).flags = withCompareFlags s.flags sv dv) ∨
    (i = .hlt ∧ (effectOf i s).flags = withHaltFlag s.flags) := by
  obtain ⟨_, _, rfl, e⟩ | ⟨_, rfl, e⟩ | ⟨_, rfl, e⟩ | ⟨_, rfl, e⟩ | ⟨o, r, hu, hc, -, hne, -, e⟩ | ⟨_, _, rfl, e⟩ |
    ⟨_, rfl, e⟩ | ⟨_, rfl, e⟩ | ⟨rfl, e⟩ | ⟨rfl, e⟩ := effectOf_cases s h <;> rw [e]
  · exact .inl ⟨nofun, rfl, rfl, State.setOperand_flags ..⟩
  · exact .inl ⟨nofun, rfl, rfl, rfl⟩
  · exact .inl ⟨nofun, rfl, rfl, rfl⟩
  · exact .inl ⟨nofun, rfl, rfl, State.setOperand_flags ..⟩
  · rw [State.setResult_flags]
    cases ho : o.isReg
    · exact .inl ⟨hne, hu.trans ho, hc, rfl⟩
    · exact .inr (.inl ⟨hne, hu.trans ho, hc, r, rfl⟩)
  · exact .inr (.inr (.inl ⟨nofun, rfl, rfl, _, _, rfl⟩))
  · exact .inl ⟨nofun, rfl, rfl, rfl⟩
  · exact .inl ⟨nofun, rfl, rfl, by split <;> rfl⟩
  · exact .inl ⟨nofun, rfl, rfl, rfl⟩
  · exact .inr (.inr (.inr ⟨rfl, rfl⟩))

/-- The two group updates leave out bit 8, so `hlt` alone sets it (R23, R25). -/
theorem haltSet_effectOf {i : Instr} (s : State) (h : i.wellFormed = true) :
    haltSet (effectOf i s).flags = true ↔ haltSet s.flags = true ∨ i = .hlt := by
  obtain ⟨hne, -, -, e⟩ | ⟨hne, -, -, r, e⟩ | ⟨hne, -, -, sv, dv, e⟩ | ⟨rfl, e⟩ := effectOf_flags_cases s h <;> rw [e]
  · simp [hne]
  · simp [hne]
  · simp [hne]
  · simp [withHaltFlag_haltSet]

/-- The run loop reads the halt flag after every step (R91). -/
theorem haltCheck_not_running {s : State} (h : haltSet s.flags = true) : s.haltCheck.run ≠ .running := by
  rw [State.haltCheck_run]
  by_cases hr : s.run = .running <;> simp [h, hr]

/-- A refused word raises before any instruction is executed, so it leaves the halt flag; a decoded instruction sets it
if it is `hlt`, and the halt check that follows keeps `flags`. -/
theorem haltSet_step {s t : State} (h : step s = .next t) :
    haltSet t.flags = true ↔ haltSet s.flags = true ∨ s.fetchInstr = .ok .hlt := by
  obtain ⟨-, ⟨e, hf, rfl⟩ | ⟨i, hf, hwf, rfl⟩⟩ := step_cases h
  · simp [hf]
  · simp [hf, haltSet_effectOf _ hwf]

theorem step_not_running_of_haltSet {s t : State} (h : step s = .next t) (ht : haltSet t.flags = true) :
    t.run ≠ .running := by
  obtain ⟨-, ⟨e, -, rfl⟩ | ⟨i, -, -, rfl⟩⟩ := step_cases h
  · simp
  · exact haltCheck_not_running (by simpa using ht)

/-- Settles O15: the flag by `haltSet_step`, the run state by the halt check. -/
theorem haltFlagSetByHltAlone : Obligations.HaltFlagSetByHltAlone :=
  ⟨by decide, fun _ _ h => ⟨haltSet_step h, step_not_running_of_haltSet h⟩⟩

/-! ### Reset -/

@[simp] theorem State.reset_getReg (r : Reg) : getReg State.reset.regs r = 0 := by cases r <;> rfl

/-- The memory at reset lists no cell, so each holds what an unlisted cell holds. -/
@[simp] theorem State.reset_cell (a : Word) : State.reset.cell a = 0 := rfl

/-- Settles O23: the registers and the cells by their lemmas, the other fields by the reset state's definition. -/
theorem resetState : Obligations.ResetState :=
  ⟨State.reset_getReg, rfl, rfl, rfl, rfl, rfl, State.reset_cell⟩

end Sys2Proof.Machine
end

section
/-! SUPPORT. The statements about encodings: the order of the operand words (R54) and the bytes of an image (R75). -/

namespace Sys2Proof

/-- Every operand but a register takes a word (R53, R83). -/
theorem takesWord_of_operandOf {f : Nibble} {w : Word} {o : Operand} (h : operandOf f w = some o) :
    takesWord f = !o.isReg := by
  obtain ⟨rfl, -⟩ := operandOf_some h
  cases o with
  | reg r => exact takesWord_regField r
  | imm k => rfl
  | mem a => rfl

/-- The word of an operand that is no register is the one offered to its field. -/
theorem operandWords_of_operandOf {f : Nibble} {w : Word} {o : Operand} (h : operandOf f w = some o)
    (ho : o.isReg = false) : operandWords o = [w] := by
  rw [(operandOf_some h).2, takesWord_of_operandOf h, ho]
  rfl

end Sys2Proof

namespace Sys2Proof.Machine

/-! ### The operand words of a decoded instruction -/

/-- The two-operand instructions are those with two operands to read, and the decoder reads both in one way (R57). -/
theorem decodeTwo_of_decode {iw w1 w2 : Word} {src dst : Operand} {i : Instr} (h : decode iw w1 w2 = .ok i)
    (ho : instrOperands i = [src, dst]) :
    ∃ mk, decodeTwo mk iw w1 w2 = .ok i ∧ ∀ s d, instrOperands (mk s d) = [s, d] := by
  have one_operand {mk : Operand → Instr} (hd : decodeOne mk iw w1 = .ok i) (hmk : ∀ o, instrOperands (mk o) = [o]) :
      False := by
    obtain ⟨o, rfl, -⟩ := decodeOne_ok hd
    simp [hmk] at ho
  unfold decode at h
  cases hm : mnemonicOf (opcodeOf iw) <;> rw [hm] at h
  case mv | add | sub | and | or | cmp => exact ⟨_, h, fun _ _ => rfl⟩
  case push | pop | inc | dec | not | call | jnz => exact (one_operand h fun _ => rfl).elim
  case io | ret | hlt => cases h; cases ho

/-- The operands of a decoded two-operand instruction, read off the fields: the source is offered the first word, the
destination the word after those the source takes (R54). -/
theorem operandOf_of_decode_two {iw w1 w2 : Word} {src dst : Operand} {i : Instr} (h : decode iw w1 w2 = .ok i)
    (ho : instrOperands i = [src, dst]) :
    operandOf (srcField iw) w1 = some src ∧
      operandOf (dstField iw) (if src.isReg = true then w1 else w2) = some dst := by
  obtain ⟨mk, hd, hmk⟩ := decodeTwo_of_decode h ho
  obtain ⟨s, d, rfl, -, hsrc, hdst⟩ := decodeTwo_ok hd
  obtain ⟨rfl, rfl⟩ : s = src ∧ d = dst := by simpa [hmk] using ho
  rw [takesWord_of_operandOf hsrc] at hdst
  refine ⟨hsrc, ?_⟩
  cases hr : s.isReg <;> simpa [hr] using hdst

/-- Settles O6: each operand that is no register takes the word its field is offered. -/
theorem operandWordsSourceFirst : Obligations.OperandWordsSourceFirst := by
  intro iw w1 w2 src dst i hi h
  have ho : instrOperands i = [src, dst] := by
    simp only [List.mem_cons, List.not_mem_nil, or_false] at hi
    obtain rfl | rfl | rfl | rfl | rfl | rfl := hi <;> rfl
  obtain ⟨hsrc, hdst⟩ := operandOf_of_decode_two h ho
  exact ⟨operandWords_of_operandOf hsrc, operandWords_of_operandOf hdst⟩

/-! ### The bytes of an image -/

@[simp] theorem imageOfWords_nil : imageOfWords [] = [] := rfl

@[simp] theorem imageOfWords_cons (w : Word) (ws : List Word) :
    imageOfWords (w :: ws) = w.extractLsb' 0 8 :: w.extractLsb' 8 8 :: imageOfWords ws := rfl

theorem imageOfWords_length (ws : List Word) : (imageOfWords ws).length = 2 * ws.length := by
  induction ws with
  | nil => rfl
  | cons w ws ih => simp [ih]; omega

/-- Bytes `2k` and `2k + 1` of an image are the low and the high byte of word `k` (R75). -/
theorem imageOfWords_getElem? (ws : List Word) (k : Nat) :
    (imageOfWords ws)[2 * k]? = ws[k]?.map (·.extractLsb' 0 8) ∧
      (imageOfWords ws)[2 * k + 1]? = ws[k]?.map (·.extractLsb' 8 8) := by
  induction ws generalizing k with
  | nil => simp
  | cons w ws ih =>
    cases k with
    | zero => exact ⟨rfl, rfl⟩
    | succ k => exact ih k

theorem toNat_low_byte (w : Word) : (w.extractLsb' 0 8).toNat = w.toNat % 256 := by
  simp [BitVec.extractLsb'_toNat]

theorem toNat_high_byte (w : Word) : (w.extractLsb' 8 8).toNat = w.toNat / 256 := by
  have := w.isLt
  rw [BitVec.extractLsb'_toNat, Nat.shiftRight_eq_div_pow]
  omega

theorem wordOfBytes_bytes (w : Word) : wordOfBytes (w.extractLsb' 0 8) (w.extractLsb' 8 8) = w := by
  apply BitVec.eq_of_toNat_eq
  rw [wordOfBytes, BitVec.toNat_append, toNat_low_byte, toNat_high_byte,
    ← Nat.shiftLeft_add_eq_or_of_lt (Nat.mod_lt _ (by decide)), Nat.shiftLeft_eq]
  exact Nat.div_add_mod' w.toNat 256

@[simp] theorem wordsOfImage_imageOfWords (ws : List Word) : wordsOfImage (imageOfWords ws) = some ws := by
  induction ws with
  | nil => rfl
  | cons w ws ih => simp [wordsOfImage, ih, wordOfBytes_bytes]

/-! ### Loading an image -/

/-- Words placed from `a` up, across the wrap of the address space too: the cell at distance `k` from `a` holds word `k`,
and a cell beyond the last word holds what it held. No cell is written twice because the words fit in the memory. -/
theorem State.placeWords_cell (s : State) (a b : Word) {ws : List Word} (h : ws.length ≤ 65536) :
    (s.placeWords a ws).cell b = ws[(b - a).toNat]?.getD (s.cell b) := by
  induction ws generalizing s a with
  | nil => rfl
  | cons w ws ih =>
    rw [List.length_cons] at h
    rw [placeWords, ih _ _ (by omega), store_cell]
    by_cases hb : b = a
    · have hdist : (b - (a + 1)).toNat = 65535 := by bv_omega
      rw [hdist, List.getElem?_eq_none (by omega)]
      simp [hb]
    · have hdist : (b - a).toNat = (b - (a + 1)).toNat + 1 := by bv_omega
      rw [hdist, List.getElem?_cons_succ, if_neg hb]

theorem boot_imageOfWords {ws : List Word} (h : ws.length ≤ 49152) :
    boot (imageOfWords ws) = .ok (State.reset.placeWords Config.origin ws) := by
  have hfits : ws.length ≤ maxImageWords := h
  simp [boot, loadImage, hfits]

/-- Settles O54: the length and the bytes from the image's recursion over the words, the cells from `placeWords_cell`. -/
theorem imageIsLittleEndianWords : Obligations.ImageIsLittleEndianWords := by
  intro ws
  refine ⟨imageOfWords_length ws, fun k w hk => ?_, wordsOfImage_imageOfWords ws, fun hlen =>
    ⟨_, boot_imageOfWords hlen, fun k w hk => ?_⟩⟩
  · obtain ⟨hlo, hhi⟩ := imageOfWords_getElem? ws k
    rw [hlo, hhi, hk]
    exact ⟨congrArg some (toNat_low_byte w), congrArg some (toNat_high_byte w)⟩
  · have hklen : k < ws.length := (List.getElem?_eq_some_iff.mp hk).1
    have hdist : (BitVec.ofNat 16 (0x4000 + k) - Config.origin).toNat = k := by
      unfold Config.origin; bv_omega
    rw [State.placeWords_cell _ _ _ (by omega), hdist, hk]
    rfl

end Sys2Proof.Machine
end

section
/-! SUPPORT. The statements about the execution model: operand writes (R85), the stack (R89, R90) and the halt check (R91). -/

namespace Sys2Proof.Machine

/-! ### The halt check -/

/-- Of all instructions only `io` writes the run state, and it does not write `Halted` (R91, R141). -/
theorem effectOf_run_cases {i : Instr} (s : State) (h : i.wellFormed = true) :
    (effectOf i s).run = s.run ∨ ∃ p, i = .io p ∧ (effectOf i s).run = .faulted .invalidOpcode (instrWord i) := by
  obtain ⟨_, _, -, e⟩ | ⟨p, hi, e⟩ | ⟨_, -, e⟩ | ⟨_, -, e⟩ | ⟨_, _, -, -, -, -, -, e⟩ | ⟨_, _, -, e⟩ |
    ⟨_, -, e⟩ | ⟨_, -, e⟩ | ⟨-, e⟩ | ⟨-, e⟩ := effectOf_cases s h <;> rw [e]
  · exact .inl (by simp)
  · exact .inr ⟨p, hi, rfl⟩
  all_goals exact .inl (by simp [apply_ite State.run])

/-- A step that raises does not halt, and its halt flag stays clear; after any other step the core is still running when
the halt check reads the flag. -/
theorem step_halted_iff_haltSet {s t : State} (hs : haltSet s.flags = false) (h : step s = .next t) :
    t.run = .halted ↔ haltSet t.flags = true := by
  obtain ⟨hr, ⟨e, -, rfl⟩ | ⟨i, -, hwf, rfl⟩⟩ := step_cases h
  · simp [hs]
  · rw [State.haltCheck_run, State.haltCheck_flags]
    obtain hrun | ⟨p, rfl, hrun⟩ := effectOf_run_cases (s.advance (instrLength i)) hwf
    · simp [hrun, hr]
    · simp [hrun, haltSet_effectOf _ hwf, hs]

theorem step_ne_next_of_not_running {s : State} (h : s.run ≠ .running) (t : State) : step s ≠ .next t :=
  fun ht => h ((step_isNext_iff s).mp ⟨t, ht⟩)

/-- Settles O14: the halt check by `step_halted_iff_haltSet`, the flag by `haltSet_step`, the end because only a running
core steps. -/
theorem haltCheckFollowsHaltFlag : Obligations.HaltCheckFollowsHaltFlag := by
  intro s t hs h
  have hflag : t.run = .halted ↔ haltSet t.flags = true := step_halted_iff_haltSet hs h
  have hhlt : haltSet t.flags = true ↔ s.fetchInstr = .ok .hlt := by simp [haltSet_step h, hs]
  exact ⟨hflag, hflag.trans hhlt, fun ht => step_ne_next_of_not_running (by simp [ht])⟩

/-! ### Operand writes -/

theorem State.setOperand_samePointers (s : State) (o : Operand) (v : Word) : SamePointers s (s.setOperand o v) := by
  simp [SamePointers]

/-- Settles O25 by the laws of `setOperand`. -/
theorem operandWriteThenRead : Obligations.OperandWriteThenRead := fun s o v ho =>
  ⟨s.setOperand_operand_same v ho, s.setOperand_sameRegs o v, s.setOperand_sameCells o v,
    s.setOperand_samePointers o v, s.setOperand_flags o v⟩

/-! ### The stack -/

theorem State.push_sp_toNat (s : State) (v : Word) : (s.push v).sp.toNat = (s.sp.toNat + 1) % 65536 :=
  BitVec.toNat_add s.sp 1

theorem State.popped_sp_toNat (s : State) : s.popped.sp.toNat = (s.sp.toNat + 65535) % 65536 := by
  rw [State.popped_sp]; bv_omega

theorem State.push_popped_sp (s : State) (v : Word) : (s.push v).popped.sp = s.sp := BitVec.add_sub_cancel s.sp 1

/-- `Pop` after `Push` reads the cell that was written, since `sp` is back where it was (R90). -/
@[simp] theorem State.push_popValue (s : State) (v : Word) : (s.push v).popValue = v := by
  rw [State.popValue, State.push_popped_sp, State.popped_cell, State.push_cell_same]

/-- Settles O26: the written cell and the other cells by the laws of `push`, the fields by its definition. -/
theorem pushWritesThenIncrements : Obligations.PushWritesThenIncrements := fun s v =>
  ⟨s.push_cell_same v, s.push_sp_toNat v, fun _ ha => s.push_cell_other v ha, rfl, rfl, rfl, rfl, rfl⟩

/-- Settles O27: `Pop` moves `sp` alone, and `push_popValue` says what it undoes. -/
theorem popUndoesPush : Obligations.PopUndoesPush := fun s v =>
  ⟨s.popped_sp_toNat, rfl, rfl, s.push_popValue v, s.push_popped_sp v⟩

end Sys2Proof.Machine
end

section
/-! SUPPORT. The statements about the encoding: the round trip in both directions, the unused bits, the refused words and
the length (R50 to R62). They go by the three formats of an instruction word: two operand fields, one, or none. -/

namespace Sys2Proof.Machine

/-! ### The formats (R52, R57) -/

/-- The instruction of a mnemonic with the operands it takes, in the order they are written; what it does not take is
ignored. -/
def instrOf (m : Mnemonic) (o₁ o₂ : Operand) : Instr :=
  match m with
  | .mv => .mv o₁ o₂
  | .io => .io 0
  | .push => .push o₁
  | .pop => .pop o₁
  | .add => .add o₁ o₂
  | .sub => .sub o₁ o₂
  | .inc => .inc o₁
  | .dec => .dec o₁
  | .and => .and o₁ o₂
  | .or => .or o₁ o₂
  | .not => .not o₁
  | .cmp => .cmp o₁ o₂
  | .call => .call o₁
  | .jnz => .jnz o₁
  | .ret => .ret
  | .hlt => .hlt

/-- Both operand fields are used, and the destination is a location. -/
structure TwoOperandFormat (m : Mnemonic) : Prop where
  instr_eq {i : Instr} : i.mnemonic = m → ∃ src dst, i = instrOf m src dst
  mnemonic (src dst : Operand) : (instrOf m src dst).mnemonic = m
  operands (src dst : Operand) : instrOperands (instrOf m src dst) = [src, dst]
  wellFormed (src dst : Operand) : (instrOf m src dst).wellFormed = dst.isLocation
  length (src dst : Operand) : instrLength (instrOf m src dst) = 1 + operandLength src + operandLength dst
  encode (src dst : Operand) : encode (instrOf m src dst) =
    packWord m (operandField src) (operandField dst) :: (operandWords src ++ operandWords dst)
  decode {iw w1 w2 : Word} : mnemonicOf (opcodeOf iw) = m → decode iw w1 w2 = decodeTwo (instrOf m) iw w1 w2
  unused : unusedBits m = 0x000F
  opcode : (opcodeBits m).toNat ∈ [0x0, 0x4, 0x5, 0x8, 0x9, 0xB]
  check (os : List AsmOperand) : checkOperands m os = checkLocation 2 os

/-- The source field alone is used; its operand is a location if `loc`, and any operand if not. -/
structure OneOperandFormat (m : Mnemonic) (loc : Bool) : Prop where
  instr_eq {i : Instr} : i.mnemonic = m → ∃ o, i = instrOf m o o
  mnemonic (o : Operand) : (instrOf m o o).mnemonic = m
  operands (o : Operand) : instrOperands (instrOf m o o) = [o]
  wellFormed (o : Operand) : (instrOf m o o).wellFormed = (!loc || o.isLocation)
  length (o : Operand) : instrLength (instrOf m o o) = 1 + operandLength o
  encode (o : Operand) : encode (instrOf m o o) = packWord m (operandField o) 0 :: operandWords o
  decode {iw w1 w2 : Word} : mnemonicOf (opcodeOf iw) = m → decode iw w1 w2 = decodeOne (fun o => instrOf m o o) iw w1
  unused : unusedBits m = 0x00FF
  opcode : (opcodeBits m).toNat ∈ if loc then [0x3, 0x6, 0x7, 0xA] else [0x2, 0xC, 0xD]
  check (os : List AsmOperand) : checkOperands m os = if loc then checkLocation 1 os else checkCount 1 os

/-- `i` is the mnemonic's one instruction, whose word has its opcode alone. -/
structure NoOperandFormat (m : Mnemonic) (i : Instr) : Prop where
  instr_eq {j : Instr} : j.mnemonic = m → j = i
  mnemonic : i.mnemonic = m
  operands : instrOperands i = []
  wellFormed : i.wellFormed = true
  length : instrLength i = 1
  encode : encode i = [packWord m 0 0]
  decode {iw w1 w2 : Word} : mnemonicOf (opcodeOf iw) = m → decode iw w1 w2 = .ok i
  unused : unusedBits m = 0x0FFF
  opcode : (opcodeBits m).toNat ∈ [0xE, 0xF]
  check (os : List AsmOperand) : checkOperands m os = checkCount 0 os

/-- Each mnemonic's instructions are of one format; `io` has its own, as it keeps the low 12 bits (R60). -/
inductive InstrFormat : Mnemonic → Prop where
  | two {m : Mnemonic} (h : TwoOperandFormat m) : InstrFormat m
  | one {m : Mnemonic} (loc : Bool) (h : OneOperandFormat m loc) : InstrFormat m
  | none {m : Mnemonic} {i : Instr} (h : NoOperandFormat m i) : InstrFormat m
  | io : InstrFormat .io

theorem instrFormat (m : Mnemonic) : InstrFormat m := by
  cases m
  case mv | add | sub | and | or | cmp =>
    refine .two ⟨fun {i} h => ?_, fun _ _ => rfl, fun _ _ => rfl, fun _ _ => rfl, fun _ _ => rfl, fun _ _ => rfl,
      fun h => by rw [decode, h]; rfl, rfl, by decide, fun _ => rfl⟩
    cases i <;> cases h
    exact ⟨_, _, rfl⟩
  case push | call | jnz =>
    refine .one false ⟨fun {i} h => ?_, fun _ => rfl, fun _ => rfl, fun _ => rfl, fun _ => rfl, fun _ => rfl,
      fun h => by rw [decode, h]; rfl, rfl, by decide, fun _ => rfl⟩
    cases i <;> cases h
    exact ⟨_, rfl⟩
  case pop | inc | dec | not =>
    refine .one true ⟨fun {i} h => ?_, fun _ => rfl, fun _ => rfl, fun _ => rfl, fun _ => rfl, fun _ => rfl,
      fun h => by rw [decode, h]; rfl, rfl, by decide, fun _ => rfl⟩
    cases i <;> cases h
    exact ⟨_, rfl⟩
  case ret | hlt =>
    refine .none ⟨fun {j} h => ?_, rfl, rfl, rfl, rfl, rfl, fun h => by rw [decode, h], rfl, by decide, fun _ => rfl⟩
    cases j <;> cases h
    rfl
  case io => exact .io

theorem decode_io {iw : Word} (w1 w2 : Word) (h : mnemonicOf (opcodeOf iw) = .io) :
    decode iw w1 w2 = .ok (.io (ioPayload iw)) := by rw [decode, h]

theorem decode_hlt {iw : Word} (w1 w2 : Word) (h : mnemonicOf (opcodeOf iw) = .hlt) : decode iw w1 w2 = .ok .hlt := by
  rw [decode, h]

/-! ### Decoding an encoding -/

theorem operandOf_operandField_cons (o : Operand) {w : Word} (h : operandWords o <+: [w]) :
    operandOf (operandField o) w = some o := by
  cases o with
  | reg r => exact operandOf_regField r w
  | imm k => cases (List.cons_prefix_cons.mp h).1; rfl
  | mem a => cases (List.cons_prefix_cons.mp h).1; rfl

theorem decodeOne_packWord (mk : Operand → Instr) (m : Mnemonic) (o : Operand) {w1 w2 : Word}
    (h : operandWords o <+: [w1, w2]) : decodeOne mk (packWord m (operandField o) 0) w1 = checkClasses (mk o) := by
  have ho : operandOf (operandField o) w1 = some o := by
    apply operandOf_operandField_cons
    cases o <;> simp_all [operandWords]
  rw [decodeOne, srcField_packWord, ho]

theorem decodeTwo_packWord (mk : Operand → Operand → Instr) (m : Mnemonic) (src dst : Operand) {w1 w2 : Word}
    (h : operandWords src ++ operandWords dst <+: [w1, w2]) :
    decodeTwo mk (packWord m (operandField src) (operandField dst)) w1 w2 = checkClasses (mk src dst) := by
  have hs : operandOf (operandField src) w1 = some src := by
    apply operandOf_operandField_cons
    cases src <;> cases dst <;> simp_all [operandWords]
  have hd : operandOf (operandField dst) (if takesWord (operandField src) then w2 else w1) = some dst := by
    apply operandOf_operandField_cons
    rw [takesWord_operandField]
    cases src <;> cases dst <;> simp_all [operandWords, operandLength]
  rw [decodeTwo, srcField_packWord, dstField_packWord, hs]
  simp only [hd]

theorem checkClasses_of_wellFormed {i : Instr} (h : i.wellFormed = true) : checkClasses i = .ok i := if_pos h

/-- The laws of the encoding, of every instruction. -/
theorem opcodeAndLength (i : Instr) : Laws.OpcodeAndLength.Statement i := by
  cases i with
  | mv src dst => exact Laws.OpcodeAndLength.mv src dst
  | io payload => exact Laws.OpcodeAndLength.io payload
  | push src => exact Laws.OpcodeAndLength.push src
  | pop dst => exact Laws.OpcodeAndLength.pop dst
  | add src dst => exact Laws.OpcodeAndLength.add src dst
  | sub src dst => exact Laws.OpcodeAndLength.sub src dst
  | inc target => exact Laws.OpcodeAndLength.inc target
  | dec target => exact Laws.OpcodeAndLength.dec target
  | and src dst => exact Laws.OpcodeAndLength.and src dst
  | or src dst => exact Laws.OpcodeAndLength.or src dst
  | not target => exact Laws.OpcodeAndLength.not target
  | cmp src dst => exact Laws.OpcodeAndLength.cmp src dst
  | call target => exact Laws.OpcodeAndLength.call target
  | jnz target => exact Laws.OpcodeAndLength.jnz target
  | ret => exact Laws.OpcodeAndLength.ret
  | hlt => exact Laws.OpcodeAndLength.hlt

theorem mnemonicOf_instrWord (i : Instr) : mnemonicOf (opcodeOf (instrWord i)) = i.mnemonic := by
  rw [(opcodeAndLength i).1, mnemonicOf_opcodeBits]

theorem ioPayload_instrWord (payload : BitVec 12) : ioPayload (instrWord (.io payload)) = payload := extract_payload ..

theorem encode_length (i : Instr) : (encode i).length = instrLength i := (opcodeAndLength i).2

/-- An instruction has 1 to 3 words (R50). -/
theorem instrLength_bounds (i : Instr) : 1 ≤ instrLength i ∧ instrLength i ≤ 3 := by
  have hle (o : Operand) : operandLength o ≤ 1 := by cases o <;> simp [operandLength]
  have hm := instrFormat i.mnemonic
  generalize hi : i.mnemonic = m at hm
  cases hm with
  | two f =>
    obtain ⟨src, dst, rfl⟩ := f.instr_eq hi
    have := hle src
    have := hle dst
    rw [f.length]
    omega
  | one loc f =>
    obtain ⟨o, rfl⟩ := f.instr_eq hi
    have := hle o
    rw [f.length]
    omega
  | none f =>
    obtain rfl := f.instr_eq hi
    rw [f.length]
    decide
  | io =>
    cases i <;> cases hi
    simp [instrLength]

/-- Words that begin with a well-formed instruction's encoding decode to it. -/
theorem decode_of_encode_isPrefix {i : Instr} {iw w1 w2 : Word} (hwf : i.wellFormed = true)
    (h : encode i <+: [iw, w1, w2]) : decode iw w1 w2 = .ok i := by
  obtain ⟨rfl, hws⟩ := List.cons_prefix_cons.mp h
  have hop := mnemonicOf_instrWord i
  have hm := instrFormat i.mnemonic
  generalize hi : i.mnemonic = m at hm hop
  cases hm with
  | two f =>
    obtain ⟨src, dst, rfl⟩ := f.instr_eq hi
    obtain ⟨hw, hws'⟩ := List.cons_eq_cons.mp (f.encode src dst)
    rw [f.decode hop, hw, decodeTwo_packWord _ _ _ _ (hws' ▸ hws), checkClasses_of_wellFormed hwf]
  | one loc f =>
    obtain ⟨o, rfl⟩ := f.instr_eq hi
    obtain ⟨hw, hws'⟩ := List.cons_eq_cons.mp (f.encode o)
    rw [f.decode hop, hw, decodeOne_packWord _ _ _ (hws' ▸ hws), checkClasses_of_wellFormed hwf]
  | none f =>
    obtain rfl := f.instr_eq hi
    exact f.decode hop
  | io =>
    cases i <;> cases hi
    rw [decode_io _ _ hop, ioPayload_instrWord]

theorem isPrefix_first_two {l : List Word} (rest : List Word) (h : l.length ≤ 2) :
    l <+: [(l ++ rest).getD 0 0, (l ++ rest).getD 1 0] := by
  obtain _ | ⟨a, _ | ⟨b, _ | ⟨c, l⟩⟩⟩ := l
  · simp
  · simp
  · simp
  · simp at h

/-- A stream that begins with a well-formed instruction's encoding decodes to it and the rest (R54). -/
theorem decodeWords_encode_append {i : Instr} (rest : List Word) (hwf : i.wellFormed = true) :
    decodeWords (encode i ++ rest) = some (i, rest) := by
  have hlen : (instrOperandWords i).length + 1 = instrLength i := encode_length i
  have hdec : decode (instrWord i) ((instrOperandWords i ++ rest).getD 0 0)
      ((instrOperandWords i ++ rest).getD 1 0) = .ok i := by
    have := (instrLength_bounds i).2
    exact decode_of_encode_isPrefix hwf (List.cons_prefix_cons.mpr ⟨rfl, isPrefix_first_two rest (by omega)⟩)
  rw [encode, List.cons_append, decodeWords, hdec]
  simp [← hlen]

/-- Settles O1: the first words decode to the instruction, and its length is that of its encoding. -/
theorem decodeEncodeRoundTrip : Obligations.DecodeEncodeRoundTrip := fun _ rest hwf => decodeWords_encode_append rest hwf

/-! ### The unused bits (R52) -/

theorem opcodeBits_of_mnemonicOf {iw : Word} {m : Mnemonic} (h : mnemonicOf (opcodeOf iw) = m) :
    opcodeBits m = opcodeOf iw := by rw [← h, opcodeBits_mnemonicOf]

/-- An `io` keeps the whole word it was read from (R141). -/
theorem instrWord_io {iw : Word} (h : mnemonicOf (opcodeOf iw) = .io) : instrWord (.io (ioPayload iw)) = iw := by
  rw [instrWord, opcodeBits_of_mnemonicOf h, opcode_payload]

section
variable {iw : Word} {m : Mnemonic} (h : mnemonicOf (opcodeOf iw) = m)
include h

/-- A word with its unused fields cleared is packed from its opcode and its used fields. -/
theorem canonicalWord_eq (p q : Nibble) (hu : ~~~unusedBits m = 0xF#4 ++ p ++ q ++ 0#4) :
    canonicalWord iw = packWord m (srcField iw &&& p) (dstField iw &&& q) := by
  rw [canonicalWord, h, hu, packWord, opcodeBits_of_mnemonicOf h, opcodeOf, srcField, dstField]
  apply BitVec.eq_of_getLsbD_eq
  intro i hi
  simp only [BitVec.getLsbD_append, BitVec.getLsbD_extractLsb', BitVec.getLsbD_and]
  interval_cases i <;> simp

theorem canonicalWord_two (hu : unusedBits m = 0x000F) : canonicalWord iw = packWord m (srcField iw) (dstField iw) := by
  rw [canonicalWord_eq h (BitVec.allOnes 4) (BitVec.allOnes 4) (by rw [hu]; rfl), BitVec.and_allOnes, BitVec.and_allOnes]

theorem canonicalWord_one (hu : unusedBits m = 0x00FF) : canonicalWord iw = packWord m (srcField iw) 0 := by
  rw [canonicalWord_eq h (BitVec.allOnes 4) 0#4 (by rw [hu]; rfl), BitVec.and_allOnes, BitVec.and_zero]
  rfl

theorem canonicalWord_none (hu : unusedBits m = 0x0FFF) : canonicalWord iw = packWord m 0 0 := by
  rw [canonicalWord_eq h 0#4 0#4 (by rw [hu]; rfl), BitVec.and_zero, BitVec.and_zero]
  rfl

end

/-- Encoding what a word decodes to gives the word's used bits back, and the words its operands took. -/
theorem encode_of_decode {iw w1 w2 : Word} {i : Instr} (h : decode iw w1 w2 = .ok i) :
    encode i = canonicalWord iw :: [w1, w2].take (instrLength i - 1) := by
  have hf := instrFormat (mnemonicOf (opcodeOf iw))
  generalize hm : mnemonicOf (opcodeOf iw) = m at hf
  cases hf with
  | two f =>
    rw [f.decode hm] at h
    obtain ⟨src, dst, rfl, -, hs, hd⟩ := decodeTwo_ok h
    obtain ⟨hsf, hsw⟩ := operandOf_some hs
    obtain ⟨hdf, hdw⟩ := operandOf_some hd
    rw [f.encode, f.length, hsf, hdf, canonicalWord_two hm f.unused, ← operandWords_length src,
      ← operandWords_length dst, hsw, hdw]
    cases takesWord (srcField iw) <;> cases takesWord (dstField iw) <;> rfl
  | one loc f =>
    rw [f.decode hm] at h
    obtain ⟨o, rfl, -, ho⟩ := decodeOne_ok h
    obtain ⟨hof, how⟩ := operandOf_some ho
    rw [f.encode, f.length, hof, canonicalWord_one hm f.unused, ← operandWords_length o, how]
    cases takesWord (srcField iw) <;> rfl
  | io =>
    rw [decode_io w1 w2 hm] at h
    cases h
    rw [encode, instrWord_io hm, canonicalWord, hm]
    exact congrArg (· :: []) BitVec.and_allOnes.symm
  | none f =>
    rw [f.decode hm] at h
    cases h
    rw [f.encode, f.length, canonicalWord_none hm f.unused]
    rfl

/-- Settles O2 by `encode_of_decode`. -/
theorem encodeDecodeCanonical : Obligations.EncodeDecodeCanonical := fun _ _ _ _ h => encode_of_decode h

/-- Words that agree outside a mask have the same bits in a field the mask does not touch. -/
theorem extractLsb'_of_masked_eq {x y mask : Word} {k n : Nat} (h : x &&& ~~~mask = y &&& ~~~mask) (hk : k + n ≤ 16)
    (hmask : mask.extractLsb' k n = 0#n) : x.extractLsb' k n = y.extractLsb' k n := by
  have unmasked (z : Word) : (z &&& ~~~mask).extractLsb' k n = z.extractLsb' k n := by
    ext j hj
    have hlt : k + j < 16 := by omega
    have hbit : mask[k + j] = false := by
      simpa [hj, hlt] using congrArg (·.getLsbD j) hmask
    simp [hbit, hlt]
  rw [← unmasked x, h, unmasked]

theorem opcode_of_masked_eq {x y : Word} {m : Mnemonic} (h : x &&& ~~~unusedBits m = y &&& ~~~unusedBits m) :
    opcodeOf x = opcodeOf y := extractLsb'_of_masked_eq h (by decide) (by cases m <;> rfl)

/-- Settles O3: the fields that the word's format uses lie outside its unused bits. -/
theorem unusedBitsIgnored : Obligations.UnusedBitsIgnored := by
  intro iw iw' w1 w2 h
  rw [canonicalWord] at h
  have hop : opcodeOf iw = opcodeOf iw' := opcode_of_masked_eq h
  have hf := instrFormat (mnemonicOf (opcodeOf iw))
  generalize hm : mnemonicOf (opcodeOf iw) = m at hf h
  have hm' : mnemonicOf (opcodeOf iw') = m := hop ▸ hm
  cases hf with
  | two f =>
    rw [f.unused] at h
    have hsrc : srcField iw = srcField iw' := extractLsb'_of_masked_eq h (by decide) rfl
    have hdst : dstField iw = dstField iw' := extractLsb'_of_masked_eq h (by decide) rfl
    rw [f.decode hm, f.decode hm', decodeTwo, decodeTwo, hsrc, hdst]
  | one loc f =>
    rw [f.unused] at h
    have hsrc : srcField iw = srcField iw' := extractLsb'_of_masked_eq h (by decide) rfl
    rw [f.decode hm, f.decode hm', decodeOne, decodeOne, hsrc]
  | io =>
    have hp : ioPayload iw = ioPayload iw' := extractLsb'_of_masked_eq h (by decide) rfl
    rw [decode_io w1 w2 hm, decode_io w1 w2 hm', hp]
  | none f => rw [f.decode hm, f.decode hm']

/-! ### What the fields of a word decide -/

theorem opcodeOf_toNat (iw : Word) : (opcodeOf iw).toNat = iw.toNat / 4096 := by
  have := iw.isLt
  rw [opcodeOf, BitVec.extractLsb'_toNat, Nat.shiftRight_eq_div_pow]
  omega

theorem srcField_toNat (iw : Word) : (srcField iw).toNat = iw.toNat / 256 % 16 := by
  rw [srcField, BitVec.extractLsb'_toNat, Nat.shiftRight_eq_div_pow]

theorem dstField_toNat (iw : Word) : (dstField iw).toNat = iw.toNat / 16 % 16 := by
  rw [dstField, BitVec.extractLsb'_toNat, Nat.shiftRight_eq_div_pow]

/-- The field numbers of a word are those of its mnemonic's opcode and of its operand fields. -/
theorem wordFields_eq {iw : Word} {m : Mnemonic} (h : mnemonicOf (opcodeOf iw) = m) :
    wordFields iw = ((opcodeBits m).toNat, (srcField iw).toNat, (dstField iw).toNat) := by
  rw [opcodeBits_of_mnemonicOf h, opcodeOf_toNat, srcField_toNat, dstField_toNat, wordFields]

/-- Settles O7 by the decoder's law; the list is compared with `mnemonicOf` at each of the 16 opcodes. -/
theorem opcodeMapInOrder : Obligations.OpcodeMapInOrder := by
  intro iw w1 w2 i h
  rw [decode_mnemonic h, ← opcodeOf_toNat]
  generalize opcodeOf iw = op
  revert op
  decide

/-- Settles O8: each word is decoded by the model. -/
theorem sampleWordsDecode : Obligations.SampleWordsDecode := ⟨rfl, rfl, rfl, rfl, rfl, rfl, rfl, rfl⟩

/-! ### Refused words (R59) -/

/-- A field holds an INVALID code (4 to 13) and no operand, or an operand, which is an immediate if the code is 14. -/
theorem operandOf_cases (f : Nibble) (w : Word) :
    (operandOf f w = none ∧ 4 ≤ f.toNat ∧ f.toNat ≤ 13) ∨
      ∃ o, operandOf f w = some o ∧ ¬(4 ≤ f.toNat ∧ f.toNat ≤ 13) ∧ (o.isLocation = false ↔ f.toNat = 14) := by
  have hclass : ∀ f : Nibble,
      (classOf f = .invalid ↔ 4 ≤ f.toNat ∧ f.toNat ≤ 13) ∧ (classOf f = .imm ↔ f.toNat = 14) := by decide
  obtain ⟨hinv, himm⟩ := hclass f
  rw [← hinv, ← himm, operandOf]
  cases classOf f <;> simp [Operand.isLocation]

theorem checkClasses_eq_error {i : Instr} : (∃ e, checkClasses i = .error e) ↔ i.wellFormed = false := by
  unfold checkClasses
  cases i.wellFormed <;> simp

theorem decodeOne_eq_error {m : Mnemonic} {loc : Bool} (f : OneOperandFormat m loc) (iw w1 : Word) :
    (∃ e, decodeOne (fun o => instrOf m o o) iw w1 = .error e) ↔
      4 ≤ (srcField iw).toNat ∧ (srcField iw).toNat ≤ if loc then 14 else 13 := by
  unfold decodeOne
  obtain ⟨ho, h4, h13⟩ | ⟨o, ho, hvalid, hloc⟩ := operandOf_cases (srcField iw) w1 <;> rw [ho]
  · cases loc <;> simp <;> omega
  · simp only [checkClasses_eq_error, f.wellFormed]
    cases loc <;> simp [hloc] <;> omega

theorem decodeTwo_eq_error {m : Mnemonic} (f : TwoOperandFormat m) (iw w1 w2 : Word) :
    (∃ e, decodeTwo (instrOf m) iw w1 w2 = .error e) ↔
      (4 ≤ (srcField iw).toNat ∧ (srcField iw).toNat ≤ 13) ∨ (4 ≤ (dstField iw).toNat ∧ (dstField iw).toNat ≤ 14) := by
  unfold decodeTwo
  obtain ⟨hs, h4, h13⟩ | ⟨src, hs, hvalid, -⟩ := operandOf_cases (srcField iw) w1 <;> rw [hs]
  · simp [h4, h13]
  · obtain ⟨hd, h4', h13'⟩ | ⟨dst, hd, hvalid', hloc⟩ :=
      operandOf_cases (dstField iw) (if takesWord (srcField iw) then w2 else w1) <;> simp only [hd]
    · simp; omega
    · simp only [checkClasses_eq_error, f.wellFormed, hloc]
      omega

/-- Settles O4: the refusals of each format, at the opcodes of that format. -/
theorem refusedWordsAreTheListedOnes : Obligations.RefusedWordsAreTheListedOnes := by
  intro iw w1 w2
  have hf := instrFormat (mnemonicOf (opcodeOf iw))
  generalize hm : mnemonicOf (opcodeOf iw) = m at hf
  rw [wordFields_eq hm]
  cases hf with
  | two f =>
    have hop := f.opcode
    rw [f.decode hm, decodeTwo_eq_error f]
    simp only [List.mem_cons, List.not_mem_nil, or_false] at hop ⊢
    omega
  | one loc f =>
    have hop := f.opcode
    rw [f.decode hm, decodeOne_eq_error f]
    cases loc <;> simp only [List.mem_cons, List.not_mem_nil, or_false, if_true, Bool.false_eq_true, if_false] at hop ⊢
    · omega
    · omega
  | io => simp [decode_io w1 w2 hm, opcodeBits]
  | none f =>
    have hop := f.opcode
    rw [f.decode hm]
    simp only [List.mem_cons, List.not_mem_nil, or_false, reduceCtorEq, exists_false, false_iff] at hop ⊢
    omega

/-! ### The length (R55) -/

theorem operandLength_of_operandOf {f : Nibble} {w : Word} {o : Operand} (h : operandOf f w = some o) :
    operandLength o = if f.toNat = 14 ∨ f.toNat = 15 then 1 else 0 := by
  obtain ⟨rfl, -⟩ := operandOf_some h
  cases o with
  | reg r => cases r <;> rfl
  | imm k => rfl
  | mem a => rfl

theorem location_code_ne {f : Nibble} {w : Word} {o : Operand} (h : operandOf f w = some o)
    (ho : o.isLocation = true) : f.toNat ≠ 14 := by
  obtain ⟨rfl, -⟩ := operandOf_some h
  cases o with
  | reg r => cases r <;> decide
  | imm k => cases ho
  | mem a => exact (by decide : (0xF : Nibble).toNat ≠ 14)

/-- Settles O5: each operand's length by its field, summed over the operands of the format. -/
theorem decodedLengthFromWord : Obligations.DecodedLengthFromWord := by
  intro iw w1 w2 i h
  have hf := instrFormat (mnemonicOf (opcodeOf iw))
  generalize hm : mnemonicOf (opcodeOf iw) = m at hf
  rw [wordFields_eq hm]
  refine ⟨?_, instrLength_bounds i⟩
  cases hf with
  | two f =>
    rw [f.decode hm] at h
    obtain ⟨src, dst, rfl, hwf, hs, hd⟩ := decodeTwo_ok h
    have hdst := location_code_ne hd (f.wellFormed src dst ▸ hwf)
    rw [if_pos f.opcode, f.length, operandLength_of_operandOf hs, operandLength_of_operandOf hd]
    simp [hdst]
  | one loc f =>
    rw [f.decode hm] at h
    obtain ⟨o, rfl, -, ho⟩ := decodeOne_ok h
    have hop := f.opcode
    have hnot2 : (opcodeBits m).toNat ∉ [0x0, 0x4, 0x5, 0x8, 0x9, 0xB] := by
      cases loc <;> simp at hop ⊢ <;> omega
    have hone : (opcodeBits m).toNat ∈ [0x2, 0x3, 0x6, 0x7, 0xA, 0xC, 0xD] := by
      cases loc <;> simp at hop ⊢ <;> omega
    rw [f.length, operandLength_of_operandOf ho, if_neg hnot2, if_pos hone]
  | io =>
    rw [decode_io w1 w2 hm] at h
    cases h
    rfl
  | none f =>
    rw [f.decode hm] at h
    cases h
    have hop := f.opcode
    rw [f.length, if_neg (by simp at hop ⊢; omega), if_neg (by simp at hop ⊢; omega)]

end Sys2Proof.Machine
end

section
/-! SUPPORT. The statements about the step: which instruction it runs, what it reads and writes of `ip`, `bp`, the flags
and memory, and the invariant (R80, R81, R37, R10). -/

namespace Sys2Proof.Machine

/-! ### Which instruction a step runs (R80, R81) -/

theorem step_eq_exec {s : State} {i : Instr} (hr : s.run = .running) (hf : s.fetchInstr = .ok i) :
    step s = haltCheckResult (exec i (s.advance (instrLength i))) := by
  rw [step_of_ok hr hf, exec_eq]
  rfl

/-- Settles O9 by `step_eq_exec`. -/
theorem stepRunsDecodedInstruction : Obligations.StepRunsDecodedInstruction := fun _ _ hr hf => step_eq_exec hr hf

/-- An instruction whose words lie from `ip` on, addresses wrapping, is the one fetched there. -/
theorem fetchInstr_of_stored {s : State} {i : Instr} (hwf : i.wellFormed = true)
    (h : ∀ k w, (encode i)[k]? = some w → s.cell (s.ip + BitVec.ofNat 16 k) = w) : s.fetchInstr = .ok i := by
  apply decode_of_encode_isPrefix hwf
  rw [List.prefix_iff_getElem?]
  intro k hk
  have hcell : s.cell (s.ip + BitVec.ofNat 16 k) = (encode i)[k] := h k _ (List.getElem?_eq_getElem hk)
  have hk3 : k < 3 := by
    have := (instrLength_bounds i).2
    rw [encode_length] at hk
    omega
  rw [← hcell]
  interval_cases k
  · simp [State.fetchWord]
  · rfl
  · rfl

/-- Settles O10: the stored instruction is fetched, and the step runs what is fetched. -/
theorem stepRunsStoredInstruction : Obligations.StepRunsStoredInstruction := fun _ _ hr hwf h =>
  step_eq_exec hr (fetchInstr_of_stored hwf h)

/-- Settles O11: the step refuses the word, and `refuseWord` changes `ip` and the run state alone. -/
theorem stepRefusesInvalidWord : Obligations.StepRefusesInvalidWord := fun s e hr hf =>
  ⟨s.refuseWord e, step_of_error hr hf, s.refuseWord_run e, rfl, rfl, rfl, rfl, fun _ => rfl⟩

/-- Settles O12 by the two arms of `step` for a core that does not run. -/
theorem terminalStatesHaveNoStep : Obligations.TerminalStatesHaveNoStep := fun s =>
  ⟨fun h => by rw [step, h], fun _ _ h => by rw [step, h]⟩

/-- Settles O13 by `step_isNext_iff`. -/
theorem runningCoreAlwaysSteps : Obligations.RunningCoreAlwaysSteps := step_isNext_iff

/-- The next state of a step whose instruction is known. -/
theorem step_of_fetched {s t : State} {i : Instr} (h : step s = .next t) (hf : s.fetchInstr = .ok i) :
    i.wellFormed = true ∧ t = (effectOf i (s.advance (instrLength i))).haltCheck := by
  rw [step_of_ok ((step_isNext_iff s).mp ⟨t, h⟩) hf] at h
  cases h
  exact ⟨decode_wellFormed hf, rfl⟩

/-! ### `ip` after a step (R14, R15) -/

theorem effectOf_ip {i : Instr} (s : State) (hwf : i.wellFormed = true) (ht : transfersControl i = false) :
    (effectOf i s).ip = s.ip := by
  obtain ⟨_, _, rfl, e⟩ | ⟨_, rfl, e⟩ | ⟨_, rfl, e⟩ | ⟨_, rfl, e⟩ | ⟨_, _, -, -, -, -, -, e⟩ | ⟨_, _, rfl, e⟩ |
    ⟨_, rfl, e⟩ | ⟨_, rfl, e⟩ | ⟨rfl, e⟩ | ⟨rfl, e⟩ := effectOf_cases s hwf <;> rw [e]
  · exact State.setOperand_ip ..
  · rfl
  · rfl
  · exact State.setOperand_ip ..
  · exact State.setResult_ip ..
  · cases ht
  · cases ht
  · cases ht

/-- Settles O16: the instruction starts with `ip` past its words and leaves it. -/
theorem ipAfterPlainStep : Obligations.IpAfterPlainStep := by
  intro s t i h hf ht _
  obtain ⟨hwf, rfl⟩ := step_of_fetched h hf
  rw [State.haltCheck_ip, effectOf_ip _ hwf ht, State.advance_ip, BitVec.toNat_add, BitVec.toNat_ofNat, Nat.add_mod_mod]

/-! ### The arithmetic and logic instructions, in one form (R110, R114) -/

/-- One of the seven instructions of R21. -/
def isArithmetic : Instr → Bool
  | .add _ _ | .sub _ _ | .inc _ | .dec _ | .and _ _ | .or _ _ | .not _ => true
  | .mv _ _ | .io _ | .push _ | .pop _ | .cmp _ _ | .call _ | .jnz _ | .ret | .hlt => false

/-- They write to one location a result that is made of operand values alone. -/
theorem effectOf_arithmetic {i : Instr} (hwf : i.wellFormed = true) (ha : isArithmetic i = true) :
    ∃ o, ∃ r : (Operand → Word) → Word, ∀ s : State,
      effectOf i s = s.setResult o (r s.operand) ∧ dataWrites i s = operandWrites o (r s.operand) := by
  cases i with
  | add src dst => exact ⟨dst, fun v => aluAdd (v dst) (v src), fun s => ⟨effectOf_add s src dst hwf, rfl⟩⟩
  | sub src dst => exact ⟨dst, fun v => aluSub (v dst) (v src), fun s => ⟨effectOf_sub s src dst hwf, rfl⟩⟩
  | inc o => exact ⟨o, fun v => aluInc (v o), fun s => ⟨effectOf_inc s o hwf, rfl⟩⟩
  | dec o => exact ⟨o, fun v => aluDec (v o), fun s => ⟨effectOf_dec s o hwf, rfl⟩⟩
  | and src dst => exact ⟨dst, fun v => aluAnd (v dst) (v src), fun s => ⟨effectOf_and s src dst hwf, rfl⟩⟩
  | or src dst => exact ⟨dst, fun v => aluOr (v dst) (v src), fun s => ⟨effectOf_or s src dst hwf, rfl⟩⟩
  | not o => exact ⟨o, fun v => aluNot (v o), fun s => ⟨effectOf_not s o hwf, rfl⟩⟩
  | mv _ _ | io _ | push _ | pop _ | cmp _ _ | call _ | jnz _ | ret | hlt => cases ha

/-! ### What a step reads of `bp` and of the flags (R19, R20) -/

/-- The state with another `bp` and other flags. -/
def State.withBpFlags (s : State) (b f : Word) : State := { s with bp := b, flags := f }

@[simp] theorem State.withBpFlags_flags (s : State) (b f : Word) : (s.withBpFlags b f).flags = f := rfl

@[simp] theorem State.withBpFlags_run (s : State) (b f : Word) : (s.withBpFlags b f).run = s.run := rfl

@[simp] theorem State.withBpFlags_operand (s : State) (b f : Word) : (s.withBpFlags b f).operand = s.operand := by
  funext o
  cases o <;> rfl

@[simp] theorem State.withBpFlags_setOperand (s : State) (b f : Word) (o : Operand) (v : Word) :
    (s.withBpFlags b f).setOperand o v = (s.setOperand o v).withBpFlags b f := by cases o <;> rfl

section
variable {mask f : Word} {s : State} (h : SameFlagsOutside mask s.flags f) (b : Word)
include h

theorem State.withBpFlags_setResult (o : Operand) (v : Word) :
    ∃ g, (s.withBpFlags b f).setResult o v = (s.setResult o v).withBpFlags b g ∧
      SameFlagsOutside mask (s.setResult o v).flags g := by
  cases o with
  | reg r => exact ⟨withResultFlags f v, rfl, h.update resultMask (resultFlag v)⟩
  | imm k => exact ⟨f, rfl, h⟩
  | mem a => exact ⟨f, rfl, h⟩

/-- An instruction started with another `bp`, and with flags that differ but not in zero, has the same effect, and the
flags still differ in the same bits alone. -/
theorem effectOf_withBpFlags {i : Instr} (hwf : i.wellFormed = true) (hz : zeroSet f = zeroSet s.flags) :
    ∃ g, effectOf i (s.withBpFlags b f) = (effectOf i s).withBpFlags b g ∧
      SameFlagsOutside mask (effectOf i s).flags g := by
  cases hi : i with
  | mv src dst =>
    subst hi
    refine ⟨f, ?_, ?_⟩ <;> simp only [effectOf_mv _ src dst hwf]
    · simp
    · simpa using h
  | push src => exact ⟨f, by simp [effectOf_push]; rfl, h⟩
  | pop dst =>
    subst hi
    refine ⟨f, ?_, ?_⟩ <;> simp only [effectOf_pop _ dst hwf]
    · exact State.withBpFlags_setOperand s.popped b f dst s.popValue
    · simpa using h
  | add | sub | inc | dec | and | or | not =>
    obtain ⟨o, r, hr⟩ := effectOf_arithmetic hwf (by rw [hi]; rfl)
    rw [← hi, (hr _).1, (hr _).1, State.withBpFlags_operand]
    exact State.withBpFlags_setResult h b o _
  | cmp src dst =>
    subst hi
    simp only [effectOf_cmp _ src dst hwf, State.withBpFlags_operand]
    exact ⟨_, rfl, h.update compareMask _⟩
  | call o => exact ⟨f, by simp [effectOf_call]; rfl, h⟩
  | jnz o =>
    simp only [effectOf_jnz, State.withBpFlags_operand, State.withBpFlags_flags, hz]
    cases zeroSet s.flags <;> exact ⟨f, rfl, h⟩
  | io p => exact ⟨f, rfl, h⟩
  | ret => exact ⟨f, rfl, h⟩
  | hlt => exact ⟨_, rfl, h.set flagHalt⟩

end

theorem State.withBpFlags_haltCheck {s : State} {f : Word} (b : Word) (h : haltSet f = haltSet s.flags) :
    (s.withBpFlags b f).haltCheck = s.haltCheck.withBpFlags b f := by
  unfold State.haltCheck
  rw [State.withBpFlags_flags, State.withBpFlags_run, h]
  split <;> rfl

/-- So has a step, if halt is outside the bits that differ too. -/
theorem step_withBpFlags {mask f : Word} {s t : State} (h : SameFlagsOutside mask s.flags f) (b : Word)
    (hzero : mask.getLsbD 1 = false) (hhalt : mask.getLsbD 8 = false) (hs : step s = .next t) :
    ∃ g, step (s.withBpFlags b f) = .next (t.withBpFlags b g) ∧ SameFlagsOutside mask t.flags g := by
  obtain ⟨hr, ⟨e, hf, rfl⟩ | ⟨i, hf, hwf, rfl⟩⟩ := step_cases hs
  · exact ⟨f, step_of_error hr hf, h⟩
  · obtain ⟨g, he, hg⟩ := effectOf_withBpFlags (s := s.advance (instrLength i)) h b hwf (h.getLsbD (by decide) hzero)
    have hstep := step_of_ok (s := s.withBpFlags b f) hr hf
    have hadvance : (s.withBpFlags b f).advance (instrLength i) = (s.advance (instrLength i)).withBpFlags b f := rfl
    rw [hadvance, he, State.withBpFlags_haltCheck b (hg.getLsbD (by decide) hhalt)] at hstep
    exact ⟨g, hstep, by rwa [State.haltCheck_flags]⟩

theorem effectOf_bp {i : Instr} (s : State) (hwf : i.wellFormed = true) : (effectOf i s).bp = s.bp := by
  obtain ⟨_, _, -, e⟩ | ⟨_, -, e⟩ | ⟨_, -, e⟩ | ⟨_, -, e⟩ | ⟨_, _, -, -, -, -, -, e⟩ | ⟨_, _, -, e⟩ |
    ⟨_, -, e⟩ | ⟨_, -, e⟩ | ⟨-, e⟩ | ⟨-, e⟩ := effectOf_cases s hwf <;> rw [e]
  · exact State.setOperand_bp ..
  · rfl
  · rfl
  · exact State.setOperand_bp ..
  · exact State.setResult_bp ..
  · rfl
  · split <;> rfl
  · rfl

theorem step_bp {s t : State} (h : step s = .next t) : t.bp = s.bp := by
  obtain ⟨-, ⟨e, -, rfl⟩ | ⟨i, -, hwf, rfl⟩⟩ := step_cases h
  · rfl
  · rw [State.haltCheck_bp, effectOf_bp _ hwf, State.advance_bp]

/-- Settles O17: `step_withBpFlags` with the flags as they are, so that they agree in every bit after the step. -/
theorem bpNeitherReadNorWritten : Obligations.BpNeitherReadNorWritten := by
  intro s t b h
  refine ⟨step_bp h, ?_⟩
  obtain ⟨g, hstep, hg⟩ := step_withBpFlags (mask := 0#16) (f := s.flags) rfl b (by decide) (by decide) h
  have hgt : g = t.flags := by
    unfold SameFlagsOutside at hg
    rwa [BitVec.not_zero, BitVec.and_allOnes, BitVec.and_allOnes] at hg
  rw [hgt] at hstep
  exact hstep

/-- Settles O18: `step_withBpFlags` with `bp` as it is. -/
theorem onlyZeroAndHaltFlagsAreRead : Obligations.OnlyZeroAndHaltFlagsAreRead := by
  intro s t f hf h
  obtain ⟨g, hstep, hg⟩ := step_withBpFlags hf s.bp (by decide) (by decide) h
  have hbp : t.withBpFlags s.bp g = { t with flags := g } := by rw [← step_bp h]; rfl
  exact ⟨g, hbp ▸ hstep, hg⟩

/-! ### Memory (R32, R37) -/

/-- Settles O24 by the laws of `store`. -/
theorem cellHoldsLatestWrite : Obligations.CellHoldsLatestWrite := fun s a v =>
  ⟨s.store_cell_same a v, fun _ h => s.store_cell_other v h, fun h => memWrite_wf h a v⟩

/-- The accesses are no write, and the memory is kept, or they are one write, and it is made. -/
def MakesAtMostOneWrite (ws : List Access) (m m' : Memory) : Prop :=
  (ws = [] ∧ m' = m) ∨ ∃ a v, ws = [.write a v] ∧ m' = memWrite m a.toNat v

theorem State.setOperand_makesWrite (s : State) (o : Operand) (v : Word) :
    MakesAtMostOneWrite (operandWrites o v) s.mem (s.setOperand o v).mem := by
  cases o with
  | reg r => exact .inl ⟨rfl, rfl⟩
  | imm k => exact .inl ⟨rfl, rfl⟩
  | mem a => exact .inr ⟨a, v, rfl, rfl⟩

/-- An instruction makes the write it presents on its port, or presents none and keeps the memory. -/
theorem effectOf_makesWrite {i : Instr} (s : State) (hwf : i.wellFormed = true) :
    MakesAtMostOneWrite (dataWrites i s) s.mem (effectOf i s).mem := by
  cases hi : i with
  | mv src dst =>
    subst hi
    rw [effectOf_mv _ _ _ hwf]
    exact s.setOperand_makesWrite dst _
  | pop dst =>
    subst hi
    rw [effectOf_pop _ _ hwf]
    exact s.popped.setOperand_makesWrite dst _
  | add | sub | inc | dec | and | or | not =>
    obtain ⟨o, r, hr⟩ := effectOf_arithmetic hwf (by rw [hi]; rfl)
    rw [← hi, (hr s).1, (hr s).2, State.setResult_mem]
    exact s.setOperand_makesWrite o _
  | push src => exact .inr ⟨s.sp, _, rfl, rfl⟩
  | call o => exact .inr ⟨s.sp, _, rfl, rfl⟩
  | cmp src dst =>
    subst hi
    rw [effectOf_cmp _ _ _ hwf]
    exact .inl ⟨rfl, rfl⟩
  | jnz o => exact .inl ⟨rfl, by rw [effectOf_jnz]; split <;> rfl⟩
  | io p => exact .inl ⟨rfl, rfl⟩
  | ret => exact .inl ⟨rfl, rfl⟩
  | hlt => exact .inl ⟨rfl, rfl⟩

theorem step_makesWrite {s t : State} {i : Instr} (h : step s = .next t) (hf : s.fetchInstr = .ok i) :
    MakesAtMostOneWrite (dataWrites i (s.advance (instrLength i))) s.mem t.mem := by
  obtain ⟨hwf, rfl⟩ := step_of_fetched h hf
  rw [State.haltCheck_mem]
  exact effectOf_makesWrite _ hwf

/-- Settles O57: the next state's memory is the old one with the presented write, and a fetch reads a cell. -/
theorem everyWriteIsSeenByNextFetch : Obligations.EveryWriteIsSeenByNextFetch := by
  intro s t i h hf
  obtain ⟨hw, hmem⟩ | ⟨a, v, hw, hmem⟩ := step_makesWrite h hf <;> rw [hw]
  · exact ⟨nofun, fun _ => State.cell_congr hmem⟩
  · refine ⟨fun a' v' ha => ?_, nofun⟩
    cases List.mem_singleton.mp ha
    have hcell (b : Word) : t.cell b = (s.store a v).cell b := State.cell_congr hmem b
    have ha : t.cell a = v := by rw [hcell, State.store_cell_same]
    exact ⟨ha, fun hip => by rw [State.fetchWord, hip, ha], fun b hb => by rw [hcell, State.store_cell_other _ _ hb]⟩

/-! ### The accesses of a step (R37) -/

/-- The access is on the read port. -/
def Access.IsRead (x : Access) : Prop := ∃ a, x = .read a

theorem foldl_applyAccess_reads {xs : List Access} (h : ∀ x ∈ xs, x.IsRead) (m : Memory) :
    xs.foldl applyAccess m = m := by
  induction xs with
  | nil => rfl
  | cons x xs ih =>
    obtain ⟨hx, hxs⟩ := List.forall_mem_cons.mp h
    obtain ⟨a, rfl⟩ := hx
    exact ih hxs

theorem operandReads_isRead (o : Operand) : ∀ x ∈ operandReads o, x.IsRead := by
  cases o with
  | reg r => nofun
  | imm k => nofun
  | mem a => exact List.forall_mem_singleton.mpr ⟨a, rfl⟩

theorem dataReads_isRead (i : Instr) (s : State) : ∀ x ∈ dataReads i s, x.IsRead := by
  cases i with
  | mv o _ | push o | inc o | dec o | not o | call o | jnz o => exact operandReads_isRead o
  | add src dst | sub src dst | and src dst | or src dst | cmp src dst =>
    exact List.forall_mem_append.mpr ⟨operandReads_isRead src, operandReads_isRead dst⟩
  | pop _ | ret => exact List.forall_mem_singleton.mpr ⟨_, rfl⟩
  | io _ | hlt => nofun

theorem operandWordReads_isRead (ip : Word) (n : Nat) : ∀ x ∈ operandWordReads ip n, x.IsRead := by
  intro x hx
  obtain ⟨k, -, rfl⟩ := List.mem_map.mp hx
  exact ⟨_, rfl⟩

/-- The accesses of a step that runs `i` are reads and then the writes of `i`. -/
theorem stepAccesses_of_ok {s : State} {i : Instr} (hr : s.run = .running) (hf : s.fetchInstr = .ok i) :
    ∃ reads : List Access, (∀ x ∈ reads, x.IsRead) ∧
      stepAccesses s = reads ++ dataWrites i (s.advance (instrLength i)) := by
  refine ⟨.read s.ip :: (operandWordReads s.ip (instrLength i) ++ dataReads i (s.advance (instrLength i))), ?_, ?_⟩
  · exact List.forall_mem_cons.mpr ⟨⟨_, rfl⟩, List.forall_mem_append.mpr
      ⟨operandWordReads_isRead _ _, dataReads_isRead _ _⟩⟩
  · simp only [stepAccesses, hr, hf, List.cons_append, List.append_assoc]

theorem stepAccesses_of_error {s : State} {e : DecodeError} (hr : s.run = .running) (hf : s.fetchInstr = .error e) :
    stepAccesses s = [.read s.ip] := by
  simp only [stepAccesses, hr, hf]

/-- Reads and then at most one write account for a memory with that write made, and only the last may be a write. -/
theorem reads_then_write {reads ws : List Access} {m m' : Memory} (hr : ∀ x ∈ reads, x.IsRead)
    (hw : MakesAtMostOneWrite ws m m') :
    m' = (reads ++ ws).foldl applyAccess m ∧ ∀ x ∈ (reads ++ ws).dropLast, x.IsRead := by
  rw [List.foldl_append, foldl_applyAccess_reads hr]
  obtain ⟨rfl, rfl⟩ | ⟨a, v, rfl, rfl⟩ := hw
  · rw [List.append_nil]
    exact ⟨rfl, fun x hx => hr x (List.mem_of_mem_dropLast hx)⟩
  · rw [List.dropLast_concat]
    exact ⟨rfl, hr⟩

/-- Settles O19: a refused word is read and no more; another step reads, and then makes its instruction's write. -/
theorem stepWritesAtMostOneCellLast : Obligations.StepWritesAtMostOneCellLast := by
  intro s t h
  obtain ⟨hr, ⟨e, hf, rfl⟩ | ⟨i, hf, -⟩⟩ := step_cases h
  · rw [stepAccesses_of_error hr hf]
    exact ⟨rfl, nofun⟩
  · obtain ⟨reads, hreads, hacc⟩ := stepAccesses_of_ok hr hf
    rw [hacc]
    exact reads_then_write hreads (step_makesWrite h hf)

end Sys2Proof.Machine
end

section
/-! SUPPORT. The statements about the flag groups and the machine's invariant (R24 to R26, R10). -/

namespace Sys2Proof.Machine

/-! ### The bits of a group -/

theorem getLsbD_of_and_eq {f g mask : Word} {i : Nat} (h : f &&& mask = g &&& mask) (hm : mask.getLsbD i = true) :
    f.getLsbD i = g.getLsbD i := by
  simpa [hm] using congrArg (·.getLsbD i) h

/-- A result-flag update leaves exactly one of its three flags, whatever was set before (R26). -/
theorem exactlyOne_withResultFlags (f r : Word) :
    exactlyOne (posSet (withResultFlags f r)) (zeroSet (withResultFlags f r)) (negSet (withResultFlags f r)) = true := by
  unfold posSet zeroSet negSet withResultFlags
  rw [update_getLsbD_inside _ _ _ (by decide), update_getLsbD_inside _ _ _ (by decide),
    update_getLsbD_inside _ _ _ (by decide)]
  obtain ⟨h, -⟩ | ⟨h, -⟩ | ⟨h, -⟩ := resultFlag_cases r <;> rw [h] <;> decide

theorem exactlyOne_withCompareFlags (f sv dv : Word) :
    exactlyOne (lessSet (withCompareFlags f sv dv)) (equalSet (withCompareFlags f sv dv))
      (greaterSet (withCompareFlags f sv dv)) = true := by
  unfold lessSet equalSet greaterSet withCompareFlags
  rw [update_getLsbD_inside _ _ _ (by decide), update_getLsbD_inside _ _ _ (by decide),
    update_getLsbD_inside _ _ _ (by decide)]
  obtain ⟨h, -⟩ | ⟨h, -⟩ | ⟨h, -⟩ := compareFlag_cases sv dv <;> rw [h] <;> decide

theorem atMostOne_of_exactlyOne {p q r : Bool} (h : exactlyOne p q r = true) : atMostOne p q r = true :=
  (Bool.and_eq_true_iff.mp h).1

/-! ### The groups over a step -/

/-- The flags `g` after an instruction that makes the result update if `ur` and the compare update if `uc`, from the flags
`f` before: a group updated holds one flag, and a group not updated and the unused bits are kept. -/
structure FlagsUpdated (ur uc : Bool) (f g : Word) : Prop where
  result : if ur = true then exactlyOne (posSet g) (zeroSet g) (negSet g) = true else g &&& resultMask = f &&& resultMask
  compare : if uc = true then exactlyOne (lessSet g) (equalSet g) (greaterSet g) = true
    else g &&& compareMask = f &&& compareMask
  unused : g &&& unusedMask = f &&& unusedMask

theorem FlagsUpdated.refl (f : Word) : FlagsUpdated false false f f := ⟨rfl, rfl, rfl⟩

theorem effectOf_flagsUpdated {i : Instr} (s : State) (hwf : i.wellFormed = true) :
    FlagsUpdated (updatesResultFlags i) (updatesCompareFlags i) s.flags (effectOf i s).flags := by
  obtain ⟨-, hr, hc, e⟩ | ⟨-, hr, hc, r, e⟩ | ⟨-, hr, hc, sv, dv, e⟩ | ⟨rfl, e⟩ := effectOf_flags_cases s hwf
  · rw [hr, hc, e]
    exact .refl _
  · have hout := withResultFlags_outside s.flags r
    rw [hr, hc, e]
    exact ⟨exactlyOne_withResultFlags .., hout.and (by decide), hout.and (by decide)⟩
  · have hout := withCompareFlags_outside s.flags sv dv
    rw [hr, hc, e]
    exact ⟨hout.and (by decide), exactlyOne_withCompareFlags .., hout.and (by decide)⟩
  · have hout := withHaltFlag_outside s.flags
    rw [e]
    exact ⟨hout.and (by decide), hout.and (by decide), hout.and (by decide)⟩

theorem fetchedIs_of_ok {s : State} {i : Instr} (h : s.fetchInstr = .ok i) (p : Instr → Bool) : fetchedIs p s = p i := by
  rw [fetchedIs, h]

theorem fetchedIs_of_error {s : State} {e : DecodeError} (h : s.fetchInstr = .error e) (p : Instr → Bool) :
    fetchedIs p s = false := by rw [fetchedIs, h]

theorem step_flagsUpdated {s t : State} (h : step s = .next t) :
    FlagsUpdated (fetchedIs updatesResultFlags s) (fetchedIs updatesCompareFlags s) s.flags t.flags := by
  obtain ⟨-, ⟨e, hf, rfl⟩ | ⟨i, hf, hwf, rfl⟩⟩ := step_cases h
  · rw [fetchedIs_of_error hf, fetchedIs_of_error hf]
    exact .refl _
  · rw [fetchedIs_of_ok hf, fetchedIs_of_ok hf, State.haltCheck_flags]
    exact effectOf_flagsUpdated (s.advance (instrLength i)) hwf

/-- Settles O22 by `step_flagsUpdated`. -/
theorem flagGroupsHoldOneFlagAfterUpdate : Obligations.FlagGroupsHoldOneFlagAfterUpdate := by
  refine ⟨by decide, fun s t h => ?_⟩
  obtain ⟨hr, hc, -⟩ := step_flagsUpdated h
  exact ⟨hr, hc⟩

/-! ### The invariant -/

section
variable {ur uc : Bool} {f g : Word} (h : FlagsUpdated ur uc f g)
include h

theorem FlagsUpdated.atMostOne_result (hf : atMostOne (posSet f) (zeroSet f) (negSet f) = true) :
    atMostOne (posSet g) (zeroSet g) (negSet g) = true := by
  obtain ⟨hr, -, -⟩ := h
  split at hr
  · exact atMostOne_of_exactlyOne hr
  · unfold posSet zeroSet negSet at hf ⊢
    rwa [getLsbD_of_and_eq hr (by decide), getLsbD_of_and_eq hr (by decide), getLsbD_of_and_eq hr (by decide)]

theorem FlagsUpdated.atMostOne_compare (hf : atMostOne (lessSet f) (equalSet f) (greaterSet f) = true) :
    atMostOne (lessSet g) (equalSet g) (greaterSet g) = true := by
  obtain ⟨-, hc, -⟩ := h
  split at hc
  · exact atMostOne_of_exactlyOne hc
  · unfold lessSet equalSet greaterSet at hf ⊢
    rwa [getLsbD_of_and_eq hc (by decide), getLsbD_of_and_eq hc (by decide), getLsbD_of_and_eq hc (by decide)]

end

theorem step_memWf {s t : State} (hs : Memory.wf s.mem = true) (h : step s = .next t) : Memory.wf t.mem = true := by
  obtain ⟨-, ⟨e, -, rfl⟩ | ⟨i, hf, -⟩⟩ := step_cases h
  · exact hs
  · obtain ⟨-, hmem⟩ | ⟨a, v, -, hmem⟩ := step_makesWrite h hf <;> rw [hmem]
    · exact hs
    · exact memWrite_wf hs a v

/-- Settles O20: the parts of the invariant one by one. A core that steps was running, so its halt flag was clear. -/
theorem stepKeepsInvariant : Obligations.StepKeepsInvariant := by
  intro s t hs h
  obtain ⟨hmem, hunused, hresult, hcompare, hhalt⟩ := hs
  have hflags := step_flagsUpdated h
  have hclear : haltSet s.flags = false := by
    rw [← Bool.not_eq_true, hhalt, (step_cases h).1]
    nofun
  exact ⟨step_memWf hmem h, hflags.unused.trans hunused, hflags.atMostOne_result hresult,
    hflags.atMostOne_compare hcompare, (step_halted_iff_haltSet hclear h).symm⟩

/-- Settles O21: memory lists no cell, no flag is set, and the core runs. -/
theorem resetMeetsInvariant : Obligations.ResetMeetsInvariant := ⟨rfl, rfl, rfl, rfl, by decide⟩

end Sys2Proof.Machine
end

section
/-! SUPPORT. The statements about the instructions: data movement and the stack (R89, R90, R100 to R103), arithmetic and
logic (R110 to R119), `cmp` (R125), transfers (R130 to R132), `hlt` and `io` (R140, R141). -/

namespace Sys2Proof.Machine

/-! ### The stack -/

theorem State.placeWords_withSp (s : State) (p a : Word) (ws : List Word) :
    State.placeWords { s with sp := p } a ws = { s.placeWords a ws with sp := p } := by
  induction ws generalizing s a with
  | nil => rfl
  | cons w ws ih => exact ih (s.store a w) (a + 1)

/-- Values pushed are words placed from `sp` up. -/
theorem State.pushAll_eq (s : State) (vs : List Word) :
    s.pushAll vs = { s.placeWords s.sp vs with sp := s.sp + BitVec.ofNat 16 vs.length } := by
  induction vs generalizing s with
  | nil => simp [pushAll, placeWords]
  | cons v vs ih =>
    have hsp : s.sp + 1 + BitVec.ofNat 16 vs.length = s.sp + BitVec.ofNat 16 (v :: vs).length := by
      rw [List.length_cons]; bv_omega
    rw [pushAll, ih, push_sp, hsp, push, placeWords_withSp]
    rfl

theorem State.pushAll_sp (s : State) (vs : List Word) : (s.pushAll vs).sp = s.sp + BitVec.ofNat 16 vs.length := by
  rw [pushAll_eq]

theorem State.pushAll_cell (s : State) {vs : List Word} (b : Word) (h : vs.length ≤ 65536) :
    (s.pushAll vs).cell b = vs[(b - s.sp).toNat]?.getD (s.cell b) := by
  rw [pushAll_eq]
  exact s.placeWords_cell s.sp b h

theorem State.popMany_values (s : State) (n : Nat) :
    (s.popMany n).1 = (List.range n).map fun k => s.cell (s.sp - BitVec.ofNat 16 (k + 1)) := by
  induction n generalizing s with
  | zero => rfl
  | succ n ih =>
    rw [popMany, ih, List.range_succ_eq_map, List.map_cons, List.map_map]
    have hsp (k : Nat) : s.sp - 1 - BitVec.ofNat 16 (k + 1) = s.sp - BitVec.ofNat 16 (k.succ + 1) := by bv_omega
    simp only [Function.comp_def, popped_cell, popped_sp, hsp]
    rfl

theorem State.popMany_sp (s : State) (n : Nat) : (s.popMany n).2.sp = s.sp - BitVec.ofNat 16 n := by
  induction n generalizing s with
  | zero => simp [popMany]
  | succ n ih =>
    rw [popMany, ih, popped_sp]
    bv_omega

/-- Settles O28: after the pushes, the cell `k + 1` below `sp` holds the value `k` places from the end of the list, also
when `sp` wrapped on the way. -/
theorem stackSymmetry : Obligations.StackSymmetry := by
  intro s vs hlen
  refine ⟨?_, ?_⟩
  · rw [State.popMany_values]
    apply List.ext_getElem (by simp)
    intro k hk _
    have hk : k < vs.length := by simpa using hk
    have hdist : (s.sp + BitVec.ofNat 16 vs.length - BitVec.ofNat 16 (k + 1) - s.sp).toNat = vs.length - 1 - k := by
      bv_omega
    rw [List.getElem_map, List.getElem_range, State.pushAll_cell s _ hlen, State.pushAll_sp, hdist,
      List.getElem?_eq_getElem (by omega), List.getElem_reverse]
    rfl
  · rw [State.popMany_sp, State.pushAll_sp, BitVec.add_sub_cancel]

/-! ### Data movement -/

/-- Settles O29 by the laws of `setOperand`. -/
theorem mvCopiesSource : Obligations.MvCopiesSource := fun s src dst h =>
  ⟨s.setOperand dst (s.operand src), by rw [exec_eq, effectOf_mv s src dst h], s.setOperand_operand_same _ h,
    s.setOperand_sameRegs dst _, s.setOperand_sameCells dst _, s.setOperand_samePointers dst _, s.setOperand_flags dst _⟩

/-- Settles O30 by the laws of `push`. -/
theorem pushStoresSource : Obligations.PushStoresSource := fun s src =>
  ⟨s.push (s.operand src), exec_eq .., s.push_cell_same _, s.push_sp_toNat _, fun _ h => s.push_cell_other _ h, rfl, rfl,
    rfl, rfl, rfl⟩

/-- Settles O31 by the laws of `setOperand` from the state with `sp` decremented. -/
theorem popLoadsDestination : Obligations.PopLoadsDestination := fun s dst h =>
  ⟨s.popped.setOperand dst s.popValue, by rw [exec_eq, effectOf_pop s dst h], State.setOperand_operand_same _ _ h,
    by rw [State.setOperand_sp, State.popped_sp_toNat], s.popped.setOperand_sameRegs dst _,
    s.popped.setOperand_sameCells dst _, State.setOperand_ip .., State.setOperand_bp .., State.setOperand_flags ..,
    State.setOperand_run ..⟩

/-! ### Arithmetic and logic -/

/-- A result written back is `WritesResult`. -/
theorem State.setResult_writesResult (s : State) {o : Operand} (r : Word) (h : o.isLocation = true) :
    WritesResult o r.toNat s (s.setResult o r) := by
  have hread : (s.setResult o r).operand o = r := by rw [setResult_operand, setOperand_operand_same s r h]
  refine ⟨congrArg _ hread, fun q hq => ?_, fun a ha => ?_, ?_, fun hreg => ?_, fun hmem => ?_⟩
  · rw [setResult_regs, s.setOperand_sameRegs o r q hq]
  · rw [setResult_cell, s.setOperand_sameCells o r a ha]
  · simp [SamePointers]
  · rw [hread, setResult_flags, if_pos hreg]
    exact ⟨withResultFlags_say s.flags r, withResultFlags_outside s.flags r⟩
  · rw [setResult_flags, hmem]
    rfl

theorem twoOperandResult_of_binary {mk : Operand → Operand → Instr} {alu : Word → Word → Word} {op : Nat → Nat → Nat}
    (heff : ∀ s src dst, dst.isLocation = true → effectOf (mk src dst) s = s.binary alu src dst)
    (halu : ∀ d v, (alu d v).toNat = op d.toNat v.toNat) : TwoOperandResult mk op := fun s src dst h =>
  ⟨s.binary alu src dst, by rw [exec_eq, heff s src dst h], by rw [← halu]; exact s.setResult_writesResult _ h⟩

theorem oneOperandResult_of_unary {mk : Operand → Instr} {alu : Word → Word} {op : Nat → Nat}
    (heff : ∀ s o, o.isLocation = true → effectOf (mk o) s = s.unary alu o)
    (halu : ∀ v, (alu v).toNat = op v.toNat) : OneOperandResult mk op := fun s o h =>
  ⟨s.unary alu o, by rw [exec_eq, heff s o h], by rw [← halu]; exact s.setResult_writesResult _ h⟩

/-- Settles O32: the sum of words is the sum modulo 65536. -/
theorem addResult : Obligations.AddResult :=
  twoOperandResult_of_binary effectOf_add fun d v => BitVec.toNat_add d v

/-- Settles O33: the difference of words is the difference modulo 65536. -/
theorem subResult : Obligations.SubResult :=
  twoOperandResult_of_binary effectOf_sub fun d v => by
    rw [aluSub, BitVec.toNat_sub, Nat.add_comm]

/-- Settles O34: the bitwise and of words is that of their numbers. -/
theorem andResult : Obligations.AndResult :=
  twoOperandResult_of_binary effectOf_and fun d v => BitVec.toNat_and d v

/-- Settles O35: the bitwise or of words is that of their numbers. -/
theorem orResult : Obligations.OrResult :=
  twoOperandResult_of_binary effectOf_or fun d v => BitVec.toNat_or d v

/-- Settles O36: the complement of a word is 65535 minus its number. -/
theorem notResult : Obligations.NotResult :=
  oneOperandResult_of_unary effectOf_not fun _ => BitVec.toNat_not

/-- Settles O37: adding 1 to a word is modulo 65536. -/
theorem incResult : Obligations.IncResult :=
  oneOperandResult_of_unary effectOf_inc fun v => BitVec.toNat_add v 1

/-- Settles O38: subtracting 1 from a word is adding 65535 modulo 65536. -/
theorem decResult : Obligations.DecResult :=
  oneOperandResult_of_unary effectOf_dec fun v => by
    unfold aluDec; bv_omega

/-- Settles O39: each of the seven writes a result back, and `setResult` updates the flags for a register alone. -/
theorem resultFlagsForRegistersOnly : Obligations.ResultFlagsForRegistersOnly := by
  intro s src dst i h hi
  have hresult : ∃ r, effectOf i s = s.setResult dst r := by
    simp only [List.mem_cons, List.not_mem_nil, or_false] at hi
    obtain rfl | rfl | rfl | rfl | rfl | rfl | rfl := hi
    · exact ⟨_, effectOf_add s src dst h⟩
    · exact ⟨_, effectOf_sub s src dst h⟩
    · exact ⟨_, effectOf_and s src dst h⟩
    · exact ⟨_, effectOf_or s src dst h⟩
    · exact ⟨_, effectOf_not s dst h⟩
    · exact ⟨_, effectOf_inc s dst h⟩
    · exact ⟨_, effectOf_dec s dst h⟩
  obtain ⟨r, hr⟩ := hresult
  refine ⟨s.setResult dst r, by rw [exec_eq, hr], fun hreg => ?_, fun hmem => ?_⟩
  · rw [State.setResult_flags, if_pos hreg]
    exact exactlyOne_withResultFlags s.flags r
  · rw [State.setResult_flags, hmem]
    rfl

/-- A result written over another, and the first value written back, restore registers and cells. -/
theorem State.setResult_restores (s : State) (o : Operand) (r : Word) :
    ((s.setResult o r).setResult o (s.operand o)).regs = s.regs ∧
      SameCells s ((s.setResult o r).setResult o (s.operand o)) := by
  cases o with
  | reg q => exact ⟨by simp [setOperand, operand], fun _ => rfl⟩
  | imm k => exact ⟨rfl, fun _ => rfl⟩
  | mem a =>
    refine ⟨rfl, fun b => ?_⟩
    simp only [setResult_cell, setOperand, operand, store_cell]
    split
    · rename_i hb; rw [hb]
    · rfl

theorem effectOf_of_exec {i : Instr} {s t : State} (h : exec i s = .next t) : t = effectOf i s := by
  rw [exec_eq] at h
  cases h
  rfl

/-- Settles O40: the second run complements the complement, which is the first value. -/
theorem notTwiceRestores : Obligations.NotTwiceRestores := by
  intro s t u o h ht hu
  have ht' : t = s.setResult o (~~~s.operand o) := (effectOf_of_exec ht).trans (effectOf_not s o h)
  have hread : t.operand o = ~~~s.operand o := by
    rw [ht', State.setResult_operand, State.setOperand_operand_same s _ h]
  have hu' : u = t.setResult o (~~~t.operand o) := (effectOf_of_exec hu).trans (effectOf_not t o h)
  rw [hu', hread, BitVec.not_not, ht']
  exact s.setResult_restores o _

/-! ### `cmp` -/

/-- Settles O41 by the laws of the compare update. -/
theorem cmpSetsCompareFlags : Obligations.CmpSetsCompareFlags := fun s src dst h =>
  ⟨{ s with flags := withCompareFlags s.flags (s.operand src) (s.operand dst) },
    by rw [exec_eq, effectOf_cmp s src dst h], rfl, withCompareFlags_say .., withCompareFlags_outside ..⟩

/-! ### Transfers -/

/-- Settles O42 by the laws of `push`. -/
theorem callPushesReturnAddress : Obligations.CallPushesReturnAddress := fun s o =>
  ⟨{ s.push s.ip with ip := s.operand o }, exec_eq .., rfl, s.push_cell_same s.ip, s.push_sp_toNat s.ip,
    fun _ h => s.push_cell_other s.ip h, rfl, rfl, rfl, rfl⟩

/-- Settles O43 by the laws of `popped`. -/
theorem retPopsIp : Obligations.RetPopsIp := fun s =>
  ⟨{ s.popped with ip := s.popValue }, exec_eq .., rfl, s.popped_sp_toNat, rfl, fun _ => rfl, rfl, rfl, rfl⟩

/-- Settles O44: the two branches of `jnz`. -/
theorem jnzTestsZeroFlag : Obligations.JnzTestsZeroFlag := by
  intro s o
  refine ⟨fun h => ?_, fun h => ?_⟩ <;> rw [exec_eq, effectOf_jnz, zeroSet, h] <;> rfl

/-- A `ret` after values were pushed and `ip` moved pops the last of them. -/
theorem ret_after_push (s : State) (v ip : Word) :
    effectOf .ret { s.push v with ip := ip } = { s.push v with ip := v, sp := s.sp } := by
  rw [effectOf_ret]
  have hv : State.popValue { s.push v with ip := ip } = v := s.push_popValue v
  rw [hv]
  simp only [State.popped, State.push_sp, BitVec.add_sub_cancel]

/-- Settles O48: the call pushes the address after it, and `ret` pops it. -/
theorem retReturnsFromCall : Obligations.RetReturnsFromCall := by
  intro s t u o ht hu
  have ht' : t = { s.push s.ip with ip := s.operand o } := effectOf_of_exec ht
  have hu' : u = { s.push s.ip with ip := s.ip, sp := s.sp } := by
    rw [effectOf_of_exec hu, ht', ret_after_push]
  rw [hu']
  exact ⟨rfl, rfl, rfl, rfl, rfl, fun b hb => s.push_cell_other s.ip hb⟩

/-- Settles O49: `ret` pops what was pushed into `ip`. -/
theorem pushThenRetJumps : Obligations.PushThenRetJumps := by
  intro s t u k ht hu
  have ht' : t = { s.push k with ip := s.ip } := effectOf_of_exec ht
  have hu' : u = { s.push k with ip := k, sp := s.sp } := by
    rw [effectOf_of_exec hu, ht', ret_after_push]
  rw [hu']
  exact ⟨rfl, rfl, rfl, rfl⟩

/-! ### `hlt`, `io` and refused terms -/

theorem mnemonicOf_of_opcode {iw : Word} {n : Nat} (h : iw.toNat / 4096 = n) :
    mnemonicOf (opcodeOf iw) = mnemonicOf (BitVec.ofNat 4 n) := by
  rw [← h, ← opcodeOf_toNat, BitVec.ofNat_toNat, BitVec.setWidth_eq]

theorem haltCheck_of_haltSet {s : State} (hr : s.run = .running) (h : haltSet s.flags = true) :
    s.haltCheck = { s with run := .halted } := if_pos ⟨hr, h⟩

theorem haltCheck_of_clear {s : State} (h : haltSet s.flags = false) : s.haltCheck = s := if_neg (by simp [h])

/-- Settles O45: any word with opcode 15 decodes to `hlt`, whose flag the halt check finds. -/
theorem hltSetsHaltFlag : Obligations.HltSetsHaltFlag := by
  refine ⟨rfl, fun s => ⟨{ s with flags := withHaltFlag s.flags }, exec_eq .., rfl, withHaltFlag_haltSet s.flags,
    withHaltFlag_outside s.flags⟩, fun s hr h => ?_⟩
  have hf : s.fetchInstr = .ok .hlt := decode_hlt _ _ (mnemonicOf_of_opcode h)
  have hcheck := haltCheck_of_haltSet (s := effectOf .hlt (s.advance 1)) hr (withHaltFlag_haltSet s.flags)
  have hstep := (step_of_ok hr hf).trans (congrArg _ hcheck)
  exact ⟨_, hstep, rfl, withHaltFlag_haltSet s.flags, withHaltFlag_outside s.flags, BitVec.toNat_add s.ip 1, rfl, rfl,
    rfl, rfl, step_ne_next_of_not_running nofun⟩

/-- Settles O46: any word with opcode 1 decodes to an `io` with that word, and the halt check leaves a faulted state. -/
theorem ioRaisesInvalidOpcode : Obligations.IoRaisesInvalidOpcode := by
  refine ⟨fun s p => ⟨s.raise .invalidOpcode (instrWord (.io p)), rfl, rfl, rfl, rfl, rfl, rfl, fun _ => rfl⟩,
    fun s hr h => ?_⟩
  have hm : mnemonicOf (opcodeOf (s.cell s.ip)) = .io := mnemonicOf_of_opcode h
  have hstep := step_of_ok hr (decode_io _ _ hm)
  rw [effectOf_io, State.fetchWord, instrWord_io hm] at hstep
  exact ⟨_, hstep, rfl, rfl, rfl, rfl, rfl, fun _ => rfl⟩

/-- Settles O47 by `effectOf_illFormed`. -/
theorem illFormedInstructionRaises : Obligations.IllFormedInstructionRaises := fun s i h =>
  ⟨s.raise .invalidOperand (instrWord i), by rw [exec_eq, effectOf_illFormed s h], rfl, rfl, rfl, rfl, rfl, fun _ => rfl⟩

/-! ### Two encodings -/

/-- Settles O50: the all-zero word is `mv a, a`, which writes back what it read. -/
theorem allZeroWordOnlyAdvances : Obligations.AllZeroWordOnlyAdvances := by
  intro s hr hh h
  have hf : s.fetchInstr = .ok (.mv (.reg .a) (.reg .a)) := by
    rw [State.fetchInstr, State.fetchWord, h]
    rfl
  exact (step_of_ok hr hf).trans (congrArg _ (haltCheck_of_clear hh))

/-- Settles O51: the word is `mv #w, [ip + 3]`, and the cell it writes is the one at the next `ip`. -/
theorem storeIsSeenByNextFetch : Obligations.StoreIsSeenByNextFetch := by
  intro s w hr hh h h1 h2
  have hf : s.fetchInstr = .ok (.mv (.imm w) (.mem (s.ip + 3))) := by
    rw [State.fetchInstr, State.fetchWord, h, h1, h2]
    rfl
  have hstep : step s = .next ((s.advance 3).store (s.ip + 3) w) :=
    (step_of_ok hr hf).trans (congrArg _ (haltCheck_of_clear hh))
  have hword : ((s.advance 3).store (s.ip + 3) w).fetchWord = w := State.store_cell_same ..
  have hnext (k : Word) (hk : 3 + k ≠ 3) :
      ((s.advance 3).store (s.ip + 3) w).cell (s.ip + 3 + k) = s.cell (s.ip + (3 + k)) := by
    rw [BitVec.add_assoc, State.store_cell_other _ _ (by bv_omega), State.advance_cell]
  refine ⟨_, hstep, hr, rfl, hword, ?_⟩
  rw [State.fetchInstr, hword]
  exact congrArg₂ (decode w) (hnext 1 (by decide)) (hnext 2 (by decide))

end Sys2Proof.Machine
end

section
/-! SUPPORT. The statements about the loader (R44, R45) and the assembler (R68, R72). -/

namespace Sys2Proof.Machine

/-! ### The loader -/

theorem imageOfWords_wordOfBytes (lo hi : Byte) (ws : List Word) :
    imageOfWords (wordOfBytes lo hi :: ws) = lo :: hi :: imageOfWords ws := by
  have hlo : (wordOfBytes lo hi).extractLsb' 0 8 = lo := BitVec.extractLsb'_append_eq_right
  have hhi : (wordOfBytes lo hi).extractLsb' 8 8 = hi := BitVec.extractLsb'_append_eq_left
  rw [imageOfWords_cons, hlo, hhi]

/-- An image has an odd number of bytes and no words, or it is the image of its words. -/
theorem wordsOfImage_cases : ∀ image : List Byte,
    (image.length % 2 = 1 ∧ wordsOfImage image = none) ∨ ∃ ws, image = imageOfWords ws
  | [] => .inr ⟨[], rfl⟩
  | [_] => .inl ⟨rfl, rfl⟩
  | lo :: hi :: rest => by
    obtain ⟨hodd, hnone⟩ | ⟨ws, rfl⟩ := wordsOfImage_cases rest
    · exact .inl ⟨by simp only [List.length_cons]; omega, by simp [wordsOfImage, hnone]⟩
    · exact .inr ⟨wordOfBytes lo hi :: ws, (imageOfWords_wordOfBytes lo hi ws).symm⟩

/-- Settles O53: an odd image has no words, and an even one is refused if its words do not fit. -/
theorem loaderRefusesUnplaceableImages : Obligations.LoaderRefusesUnplaceableImages := by
  intro image s
  have hmax : maxImageWords = 49152 := rfl
  unfold loadImage
  obtain ⟨hodd, hnone⟩ | ⟨ws, rfl⟩ := wordsOfImage_cases image
  · simp [hnone, hodd]
  · rw [wordsOfImage_imageOfWords, imageOfWords_length, hmax]
    by_cases h : ws.length ≤ 49152
    · simp [h]
      omega
    · simp [h]
      omega

theorem State.placeWords_frame (s : State) (a : Word) (ws : List Word) :
    s.placeWords a ws = { s with mem := (s.placeWords a ws).mem } := by
  induction ws generalizing s a with
  | nil => rfl
  | cons w ws ih => exact ih (s.store a w) (a + 1)

theorem State.placeWords_wf {s : State} (h : Memory.wf s.mem = true) (a : Word) (ws : List Word) :
    Memory.wf (s.placeWords a ws).mem = true := by
  induction ws generalizing s a with
  | nil => exact h
  | cons w ws ih => exact ih (memWrite_wf h a w) (a + 1)

/-- Settles O52: the image is that of its words, which lie from the origin up. -/
theorem loaderPlacesImage : Obligations.LoaderPlacesImage := by
  intro image n hlen hn
  obtain ⟨hodd, -⟩ | ⟨ws, rfl⟩ := wordsOfImage_cases image
  · omega
  rw [imageOfWords_length] at hlen
  have hcell (a : Word) : (State.reset.placeWords Config.origin ws).cell a = ws[(a - Config.origin).toNat]?.getD 0 :=
    State.placeWords_cell _ _ _ (by omega)
  refine ⟨_, boot_imageOfWords (by omega), fun k lo hi hk hlo hhi => ?_, fun a ha => ?_,
    State.placeWords_frame _ _ _, State.placeWords_wf rfl _ _⟩
  · have hdist : (BitVec.ofNat 16 (0x4000 + k) - Config.origin).toNat = k := by
      unfold Config.origin; bv_omega
    have hw : ws[k]? = some ws[k] := List.getElem?_eq_getElem (by omega)
    rw [(imageOfWords_getElem? ws k).1, hw] at hlo
    rw [(imageOfWords_getElem? ws k).2, hw] at hhi
    cases hlo
    cases hhi
    rw [hcell, hdist, hw, toNat_low_byte, toNat_high_byte]
    exact (Nat.mod_add_div ws[k].toNat 256).symm
  · have hdist : ws.length ≤ (a - Config.origin).toNat := by
      unfold Config.origin; bv_omega
    rw [hcell, List.getElem?_eq_none hdist]
    rfl

/-! ### What the assembler emits for an operand and a statement (R68) -/

/-- An ordinary operand is emitted as the field and the words of the operand it means, which is a location unless it was
written as an immediate. -/
theorem emitOperand_ordinary {syms : Symbols} {o : AsmOperand} {f : Nibble} {ws : List Word}
    (ho : o.isOrdinary = true) (h : emitOperand syms o = .ok (f, ws)) :
    ∃ q, o.meaning syms = some q ∧ operandField q = f ∧ operandWords q = ws ∧ q.isLocation = !o.isImm := by
  cases o with
  | reg r => cases h; exact ⟨.reg r, rfl, rfl, rfl, rfl⟩
  | special code => cases ho
  | imm v =>
    cases hv : resolve syms v with simp only [emitOperand, hv] at h
    | error e => cases h
    | ok w => cases h; exact ⟨.imm w, by rw [AsmOperand.meaning, hv]; rfl, rfl, rfl, rfl⟩
  | mem v =>
    cases hv : resolve syms v with simp only [emitOperand, hv] at h
    | error e => cases h
    | ok w => cases h; exact ⟨.mem w, by rw [AsmOperand.meaning, hv]; rfl, rfl, rfl, rfl⟩

theorem emitStatement_one {syms : Symbols} {m : Mnemonic} {o : AsmOperand} {ws : List Word}
    (h : emitStatement syms (.instr m [o]) = .ok ws) :
    ∃ f w, emitOperand syms o = .ok (f, w) ∧ ws = packWord m f 0 :: w := by
  cases ho : emitOperand syms o with simp only [emitStatement, ho] at h
  | error e => cases h
  | ok p => cases h; exact ⟨p.1, p.2, rfl, rfl⟩

theorem emitStatement_two {syms : Symbols} {m : Mnemonic} {o₁ o₂ : AsmOperand} {os : List AsmOperand} {ws : List Word}
    (h : emitStatement syms (.instr m (o₁ :: o₂ :: os)) = .ok ws) :
    ∃ f₁ w₁ f₂ w₂, emitOperand syms o₁ = .ok (f₁, w₁) ∧ emitOperand syms o₂ = .ok (f₂, w₂) ∧
      ws = packWord m f₁ f₂ :: (w₁ ++ w₂) := by
  cases h₁ : emitOperand syms o₁ with simp only [emitStatement, h₁] at h
  | error e => cases h
  | ok p₁ =>
    cases h₂ : emitOperand syms o₂ with simp only [h₂] at h
    | error e => cases h
    | ok p₂ => cases h; exact ⟨p₁.1, p₁.2, p₂.1, p₂.2, rfl, rfl, rfl⟩

/-! ### The operand check (R69) -/

theorem checkCount_ok {n : Nat} {os : List AsmOperand} (h : checkCount n os = .ok ()) : os.length = n := by
  unfold checkCount at h
  split at h
  · cases h
  · rename_i hn
    exact Decidable.not_not.mp hn

theorem checkLocation_ok {n : Nat} {os : List AsmOperand} (h : checkLocation n os = .ok ()) :
    os.length = n ∧ ∀ o, os.getLast? = some o → o.isImm = false := by
  unfold checkLocation at h
  split at h
  · cases h
  · rename_i hn
    split at h
    · cases h
    · rename_i himm
      exact ⟨Decidable.not_not.mp hn, fun o ho => by simpa [ho] using himm⟩

/-- Settles O56: by the mnemonic's format, each operand emitted is one that the core's instruction has. -/
theorem emittedInstructionIsEncoded : Obligations.EmittedInstructionIsEncoded := by
  intro syms m os ws hcheck hord h
  have hf := instrFormat m
  cases hf with
  | two f =>
    obtain ⟨hlen, himm⟩ := checkLocation_ok (f.check os ▸ hcheck)
    obtain ⟨o₁, o₂, rfl⟩ := List.length_eq_two.mp hlen
    obtain ⟨f₁, w₁, f₂, w₂, h₁, h₂, rfl⟩ := emitStatement_two h
    obtain ⟨hord₁, hord₂⟩ : o₁.isOrdinary = true ∧ o₂.isOrdinary = true := by simpa using hord
    obtain ⟨q₁, hm₁, rfl, rfl, -⟩ := emitOperand_ordinary hord₁ h₁
    obtain ⟨q₂, hm₂, rfl, rfl, hloc⟩ := emitOperand_ordinary hord₂ h₂
    exact ⟨instrOf m q₁ q₂, by rw [f.wellFormed, hloc, himm o₂ rfl]; rfl, f.mnemonic q₁ q₂,
      by simp [f.operands, hm₁, hm₂], f.encode q₁ q₂⟩
  | one loc f =>
    have hlen : os.length = 1 ∧ (loc = true → ∀ o, os.getLast? = some o → o.isImm = false) := by
      rw [f.check] at hcheck
      cases loc
      · exact ⟨checkCount_ok hcheck, nofun⟩
      · exact ⟨(checkLocation_ok hcheck).1, fun _ => (checkLocation_ok hcheck).2⟩
    obtain ⟨hlen, himm⟩ := hlen
    obtain ⟨o, rfl⟩ := List.length_eq_one_iff.mp hlen
    obtain ⟨fo, w, ho, rfl⟩ := emitStatement_one h
    obtain ⟨q, hm, rfl, rfl, hloc⟩ := emitOperand_ordinary (by simpa using hord) ho
    refine ⟨instrOf m q q, ?_, f.mnemonic q, by simp [f.operands, hm], f.encode q⟩
    rw [f.wellFormed, hloc]
    cases loc
    · rfl
    · rw [himm rfl o rfl]
      rfl
  | io => cases hcheck
  | none f =>
    obtain rfl := List.length_eq_zero_iff.mp (checkCount_ok (f.check os ▸ hcheck))
    cases h
    exact ⟨_, f.wellFormed, f.mnemonic, by rw [f.operands]; rfl, f.encode⟩

/-! ### The length of a statement, known in pass 1 (R72) -/

theorem emitOperand_length {syms : Symbols} {o : AsmOperand} {f : Nibble} {ws : List Word}
    (h : emitOperand syms o = .ok (f, ws)) : ws.length = asmOperandLength o := by
  cases o with
  | reg r => cases h; rfl
  | special code => cases h; rfl
  | imm v | mem v =>
    cases hv : resolve syms v <;> simp only [emitOperand, hv] at h <;> cases h
    rfl

theorem packText_length : ∀ bytes : List Byte, (packText bytes).length = bytes.length / 2 + 1
  | [] => rfl
  | [_] => by simp [packText]
  | _ :: _ :: rest => by
    have := packText_length rest
    simp only [packText, List.length_cons]
    omega

/-- The statement has no operand that pass 2 would not look at. -/
def AsmStatement.AtMostTwoOperands : AsmStatement → Prop
  | .empty => True
  | .instr _ os => os.length ≤ 2
  | .data _ => True
  | .text _ => True

theorem checkOperands_length {m : Mnemonic} {os : List AsmOperand} (h : checkOperands m os = .ok ()) :
    os.length ≤ 2 := by
  have hf := instrFormat m
  cases hf with
  | two f =>
    have := (checkLocation_ok (f.check os ▸ h)).1
    omega
  | one loc f =>
    rw [f.check] at h
    cases loc
    · have := checkCount_ok h
      omega
    · have := (checkLocation_ok h).1
      omega
  | io => cases h
  | none f =>
    have := checkCount_ok (f.check os ▸ h)
    omega

/-- Pass 2 emits as many words as pass 1 counted. -/
theorem emitStatement_length {syms : Symbols} {st : AsmStatement} {ws : List Word} (hst : st.AtMostTwoOperands)
    (h : emitStatement syms st = .ok ws) : ws.length = statementLength st := by
  cases st with
  | empty => cases h; rfl
  | data w => cases h; rfl
  | text bytes => cases h; exact packText_length bytes
  | instr m os =>
    match os, hst with
    | [], _ => cases h; rfl
    | [o], _ =>
      obtain ⟨f, w, ho, rfl⟩ := emitStatement_one h
      simp [statementLength, emitOperand_length ho]
      omega
    | [o₁, o₂], _ =>
      obtain ⟨f₁, w₁, f₂, w₂, h₁, h₂, rfl⟩ := emitStatement_two h
      simp [statementLength, emitOperand_length h₁, emitOperand_length h₂]
      omega

/-! ### Lines that parse -/

theorem statementOf_atMostTwoOperands {p : Config.AsmParams} {m : List Char} {ts : List (List Char)} {st : AsmStatement}
    (h : statementOf p m ts = .ok st) : st.AtMostTwoOperands := by
  unfold statementOf at h
  split at h
  split at h
  · cases h; trivial
  · split at h
    · cases h
    · split at h
      · cases h
      · split at h
        · cases h
        · rename_i hcheck
          cases h
          exact checkOperands_length hcheck

theorem instructionLine_atMostTwoOperands {p : Config.AsmParams} {cs : List Char} {line : AsmLine}
    (h : instructionLine p cs = .ok line) : line.statement.AtMostTwoOperands := by
  unfold instructionLine at h
  split at h
  split at h
  · cases h
  · split at h
    · cases h
    · rename_i hst
      cases h
      exact statementOf_atMostTwoOperands hst

theorem directiveLine_atMostTwoOperands {label : Option (List Char)} {isData : Bool} {arg : List Char} {line : AsmLine}
    (h : directiveLine label isData arg = .ok line) : line.statement.AtMostTwoOperands := by
  unfold directiveLine at h
  split at h <;> split at h <;> cases h <;> trivial

theorem parseLine_atMostTwoOperands {p : Config.AsmParams} {cs : List Char} {line : AsmLine}
    (h : parseLine p cs = .ok line) : line.statement.AtMostTwoOperands := by
  unfold parseLine at h
  dsimp only at h
  split at h
  · exact directiveLine_atMostTwoOperands h
  · split at h
    · exact instructionLine_atMostTwoOperands h
    · split at h
      · exact instructionLine_atMostTwoOperands h
      · split at h
        · cases h
        · exact directiveLine_atMostTwoOperands h

/-! ### The two passes (R72) -/

theorem lookupSymbol_append (name : List Char) (syms more : Symbols) :
    lookupSymbol name (syms ++ more) = (lookupSymbol name syms).or (lookupSymbol name more) := by
  induction syms with
  | nil => rfl
  | cons e syms ih =>
    obtain ⟨l, w⟩ := e
    rw [List.cons_append, lookupSymbol, lookupSymbol]
    split
    · rfl
    · exact ih

/-- Every symbol of `syms` has in `out` the address it has in `syms`. -/
def KeepsSymbols (syms out : Symbols) : Prop :=
  ∀ name w, lookupSymbol name syms = some w → lookupSymbol name out = some w

/-- Pass 1 over a line and the lines after it: the line parses, and the others are read with a table that has the line's
label at the line's address. -/
theorem passOne_cons {p : Config.AsmParams} {text : List Char} {more : List (List Char)} {n k : Nat} {syms out : Symbols}
    {lines : List (Nat × AsmLine)} (h : passOne p (text :: more) n k syms = .ok (lines, out)) :
    ∃ line rest syms', parseLine p text = .ok line ∧ lines = (n, line) :: rest ∧
      passOne p more (n + 1) (k + statementLength line.statement) syms' = .ok (rest, out) ∧ KeepsSymbols syms syms' ∧
      ∀ l, line.label = some l → lookupSymbol l syms' = some (addressAt k) := by
  unfold passOne at h
  split at h
  · cases h
  · rename_i line hline
    split at h
    · rename_i hlabel
      split at h
      · cases h
      · rename_i rest out' hrest
        cases h
        exact ⟨line, rest, syms, hline, rfl, hrest, fun _ _ h => h, fun l hl => by rw [hlabel] at hl; cases hl⟩
    · rename_i l hlabel
      split at h
      · cases h
      · rename_i hnew
        split at h
        · cases h
        · rename_i rest out' hrest
          cases h
          refine ⟨line, rest, _, hline, rfl, hrest, fun name w hw => ?_, fun l' hl' => ?_⟩
          · rw [lookupSymbol_append, hw]
            rfl
          · rw [hlabel] at hl'
            cases hl'
            rw [lookupSymbol_append, hnew]
            exact if_pos rfl

/-- The words that pass 1 counts for some lines. -/
def linesLength (lines : List (Nat × AsmLine)) : Nat := (lines.map fun l => statementLength l.2.statement).sum

/-- What pass 1 leaves for pass 2: statements of which pass 2 looks at every operand, the symbols kept, and each label at
the address of its line. -/
theorem passOne_ok {p : Config.AsmParams} {texts : List (List Char)} {n k : Nat} {syms out : Symbols}
    {lines : List (Nat × AsmLine)} (h : passOne p texts n k syms = .ok (lines, out)) :
    (∀ x ∈ lines, x.2.statement.AtMostTwoOperands) ∧ KeepsSymbols syms out ∧
      ∀ before m line after l, lines = before ++ (m, line) :: after → line.label = some l →
        lookupSymbol l out = some (addressAt (k + linesLength before)) := by
  induction texts generalizing n k syms lines with
  | nil =>
    cases h
    exact ⟨nofun, fun _ _ h => h, fun before _ _ _ _ h => by simp at h⟩
  | cons text more ih =>
    obtain ⟨head, rest, syms', hparse, rfl, hrest, hkeep, hlabel⟩ := passOne_cons h
    obtain ⟨hrest2, hkeep', haddr⟩ := ih hrest
    refine ⟨List.forall_mem_cons.mpr ⟨parseLine_atMostTwoOperands hparse, hrest2⟩,
      fun name w hw => hkeep' name w (hkeep name w hw), fun before m line after l hlines hl => ?_⟩
    cases before with
    | nil =>
      obtain ⟨⟨-, rfl⟩, -⟩ : (n = m ∧ head = line) ∧ rest = after := by simpa using hlines
      exact hkeep' l _ (hlabel l hl)
    | cons b before =>
      obtain ⟨rfl, hrest⟩ := List.cons_eq_cons.mp hlines
      rw [haddr before m line after l hrest hl, linesLength, linesLength, List.map_cons, List.sum_cons, Nat.add_assoc]

theorem passTwo_append {syms : Symbols} {before after : List (Nat × AsmLine)} {ws : List Word}
    (h : passTwo syms (before ++ after) = .ok ws) : ∃ wb wa, passTwo syms before = .ok wb ∧ ws = wb ++ wa := by
  induction before generalizing ws with
  | nil => exact ⟨[], ws, rfl, rfl⟩
  | cons b before ih =>
    obtain ⟨n, line⟩ := b
    rw [List.cons_append] at h
    cases hst : emitStatement syms line.statement with simp only [passTwo, hst] at h ⊢
    | error e => cases h
    | ok w =>
      cases hrest : passTwo syms (before ++ after) with simp only [hrest] at h
      | error e => cases h
      | ok ws' =>
        cases h
        obtain ⟨wb, wa, hwb, rfl⟩ := ih hrest
        exact ⟨w ++ wb, wa, by rw [hwb], (List.append_assoc ..).symm⟩

theorem passTwo_length {syms : Symbols} {lines : List (Nat × AsmLine)} {ws : List Word}
    (hst : ∀ x ∈ lines, x.2.statement.AtMostTwoOperands) (h : passTwo syms lines = .ok ws) :
    ws.length = linesLength lines := by
  induction lines generalizing ws with
  | nil => cases h; rfl
  | cons x lines ih =>
    obtain ⟨hx, hlines⟩ := List.forall_mem_cons.mp hst
    obtain ⟨n, line⟩ := x
    cases hline : emitStatement syms line.statement with simp only [passTwo, hline] at h
    | error e => cases h
    | ok w =>
      cases hrest : passTwo syms lines with simp only [hrest] at h
      | error e => cases h
      | ok ws' =>
        cases h
        rw [List.length_append, emitStatement_length hx hline, ih hlines hrest, linesLength, linesLength, List.map_cons,
          List.sum_cons]

/-- Settles O55: pass 1 counts for the lines before the label's line the words that pass 2 emits for them. -/
theorem assembledAddressesAgree : Obligations.AssembledAddressesAgree := by
  intro p texts lines before after syms ws n line l h₁ h₂ rfl hl
  obtain ⟨hst, -, haddr⟩ := passOne_ok h₁
  obtain ⟨wb, wa, hwb, rfl⟩ := passTwo_append h₂
  have hlen : wb.length = linesLength before := passTwo_length (fun x hx => hst x (List.mem_append_left _ hx)) hwb
  refine ⟨wb, hwb, List.prefix_append wb wa, ?_⟩
  rw [haddr before n line after l rfl hl, Nat.zero_add, hlen]
  rfl

end Sys2Proof.Machine
end
